-- ==== Sys2Proof/Word.lean ====
section
/-! DEFINITION. The widths the spec fixes: a word (R6), a byte of the digit buffer (R38), a command word (R80), an offset
into the host window (R50). -/

namespace Sys2Proof

/-- One 64-bit unit of a multi-word integer's storage (R6); host-visible registers have the same width (10_state.md section 3). -/
abbrev Word := BitVec 64

/-- A byte of the digit buffer (R38), and an opcode byte (R82). -/
abbrev Byte := BitVec 8

/-- A command word (R80). -/
abbrev Cmd := BitVec 32

/-- A byte offset in the host window of `2^17` bytes (R50). -/
abbrev Offset := BitVec 17

end Sys2Proof
end

