-- ==== Sys2Proof/Config.lean ====
section
/-! DEFINITION. What a synthesis fixes (N and NREG, R7 and R8, and the digit buffer length they give, R9), and the two
free values the spec leaves to the model (R11): the draw UNINIT and the latency LAT. A free value is a constant without a
body: no proof can learn anything about it. -/

namespace Sys2Proof

/-- The synthesis parameters (R7, R8). -/
structure Params where
  /-- the word count N -/
  n : Nat
  /-- the register count NREG -/
  nreg : Nat
deriving DecidableEq, Repr

namespace Params

/-- The defaults: N = 11 (R7), NREG = 16 (R8). -/
def default : Params := ⟨11, 16⟩

/-- The legal ranges: N in 1..1024 (R7), NREG in 1..16 (R8). -/
def legal (p : Params) : Bool := 1 ≤ p.n && p.n ≤ 1024 && 1 ≤ p.nreg && p.nreg ≤ 16

/-- M = 64·N, the value width in bits (R7). -/
def bits (p : Params) : Nat := 64 * p.n

end Params

/-- Counts the decimal digits of `x`, given at least as much fuel as there are digits. -/
def digitCount : Nat → Nat → Nat
  | 0, _ => 0
  | fuel + 1, x => if x = 0 then 0 else digitCount fuel (x / 10) + 1

/-- The number of decimal digits of `2^m`, which has at most `m + 1` of them (R9). -/
def ndigitsOfPow (m : Nat) : Nat := digitCount (m + 1) (2 ^ m)

/-- DLEN = ndigits(2^M) + 1 (R9). -/
def Params.dlen (p : Params) : Nat := ndigitsOfPow p.bits + 1

namespace Config

/-- What a free value is drawn for: a word of the first or second source operand of a command (R22), a byte of the digit
buffer that no DEC has written (R38), or the reply to a host read that R58 leaves open. -/
inductive Site
  | rs1 (pos : Nat)
  | rs2 (pos : Nat)
  | digit (i : Nat)
  | bus
deriving DecidableEq, Repr

/-- The draw UNINIT (R11, R22): a 64-bit value under no law, for the `draw`-th command or host read of the run and the
place it is read at. Log 2, DESIGN CHOICE (the form; the freedom is the spec's). -/
opaque uninit (draw : Nat) (site : Site) : Word

/-- The latency LAT (R246), finite and otherwise open: how many further steps pass before the command accepted at this draw
is executed. It may depend on everything, since each acceptance has a draw of its own. Log 4, DESIGN CHOICE. -/
opaque lat (draw : Nat) (cmd : Cmd) : Nat

end Config

end Sys2Proof
end

