-- ==== Sys2Proof/Syntax.lean ====
section
/-! DEFINITION. The commands (R85): one constructor per row of spec/opcode_table.json, operands as the numbers their fields
hold (R82), in the order of the assembler syntax (R90). -/

namespace Sys2Proof

/-- The ten commands (R4, R85). -/
inductive Instr
  /-- ZERO rd (R100) -/
  | zero (rd : Nat)
  /-- SETW rd, pos (R102) -/
  | setw (rd pos : Nat)
  /-- GETW rs1, pos (R103) -/
  | getw (rs1 pos : Nat)
  /-- LEN rs1 (R104) -/
  | len (rs1 : Nat)
  /-- SHL rd, rs1, n (R105) -/
  | shl (rd rs1 n : Nat)
  /-- SHR rd, rs1, n (R110) -/
  | shr (rd rs1 n : Nat)
  /-- ADD rd, rs1, rs2 (R130) -/
  | add (rd rs1 rs2 : Nat)
  /-- SUB rd, rs1, rs2 (R135) -/
  | sub (rd rs1 rs2 : Nat)
  /-- MUL rd, rs1, rs2 (R140) -/
  | mul (rd rs1 rs2 : Nat)
  /-- DEC rs1 (R160) -/
  | dec (rs1 : Nat)
deriving DecidableEq, Repr

end Sys2Proof
end

