-- ==== Sys2Proof/WellFormed.lean ====
section
/-! DEFINITION. Which commands fit a command word: every register number fits its 4-bit field and every immediate its 12-bit
field (R82). Whether a number is legal for the block's NREG and N is no matter of form: it is the INDEX check of the command
(R83, R84). -/

namespace Sys2Proof

/-- A register number fits the 4-bit field (R82). -/
def fitsReg (r : Nat) : Bool := r < 16

/-- An immediate fits the 12-bit field (R82, R83). -/
def fitsImm (v : Nat) : Bool := v < 4096

/-- The command's operands fit their fields. -/
def Instr.wellFormed : Instr → Bool
  | .zero rd => fitsReg rd
  | .setw rd pos => fitsReg rd && fitsImm pos
  | .getw rs1 pos => fitsReg rs1 && fitsImm pos
  | .len rs1 => fitsReg rs1
  | .shl rd rs1 n => fitsReg rd && fitsReg rs1 && fitsImm n
  | .shr rd rs1 n => fitsReg rd && fitsReg rs1 && fitsImm n
  | .add rd rs1 rs2 => fitsReg rd && fitsReg rs1 && fitsReg rs2
  | .sub rd rs1 rs2 => fitsReg rd && fitsReg rs1 && fitsReg rs2
  | .mul rd rs1 rs2 => fitsReg rd && fitsReg rs1 && fitsReg rs2
  | .dec rs1 => fitsReg rs1

end Sys2Proof
end

