-- ==== Sys2Proof/Decode.lean ====
section
/-! DEFINITION. The opcode map (R85), decoding (R88), the ILLEGAL words by the reason they are so (R86, R87), and encoding
(R89). -/

namespace Sys2Proof

/-- The rows of the opcode map (R85), in its order. -/
inductive Op
  | zero | setw | getw | len | shl | shr | add | sub | mul | dec
deriving DecidableEq, Repr

/-- All rows, in the order of R85. -/
def Op.all : List Op := [.zero, .setw, .getw, .len, .shl, .shr, .add, .sub, .mul, .dec]

/-- The opcode byte, column "op" of R85. -/
def Op.code : Op → Byte
  | .zero => 0x01#8
  | .setw => 0x02#8
  | .getw => 0x03#8
  | .len => 0x04#8
  | .shl => 0x10#8
  | .shr => 0x11#8
  | .add => 0x20#8
  | .sub => 0x21#8
  | .mul => 0x30#8
  | .dec => 0x40#8

/-- Column "match" of R85. -/
def Op.pattern : Op → Cmd
  | .zero => 0x01000000#32
  | .setw => 0x02000000#32
  | .getw => 0x03000000#32
  | .len => 0x04000000#32
  | .shl => 0x10000000#32
  | .shr => 0x11000000#32
  | .add => 0x20000000#32
  | .sub => 0x21000000#32
  | .mul => 0x30000000#32
  | .dec => 0x40000000#32

/-- Column "mask" of R85. -/
def Op.mask : Op → Cmd
  | .zero => 0xFF0FFFFF#32
  | .setw => 0xFF0FF000#32
  | .getw => 0xFFF0F000#32
  | .len => 0xFFF0FFFF#32
  | .shl => 0xFF00F000#32
  | .shr => 0xFF00F000#32
  | .add => 0xFF000FFF#32
  | .sub => 0xFF000FFF#32
  | .mul => 0xFF000FFF#32
  | .dec => 0xFFF0FFFF#32

/-- `v[hi:lo]`, as an unsigned number (R12). -/
def cmdBits (c : Cmd) (hi lo : Nat) : Nat := c.toNat / 2 ^ lo % 2 ^ (hi + 1 - lo)

/-- The fields of a command word (R82). -/
def opField (c : Cmd) : Byte := BitVec.ofNat 8 (cmdBits c 31 24)

/-- The command of a row, from the fields it uses (R85, column "used fields"). -/
def Op.build (rd rs1 rs2 imm : Nat) : Op → Instr
  | .zero => .zero rd
  | .setw => .setw rd imm
  | .getw => .getw rs1 imm
  | .len => .len rs1
  | .shl => .shl rd rs1 imm
  | .shr => .shr rd rs1 imm
  | .add => .add rd rs1 rs2
  | .sub => .sub rd rs1 rs2
  | .mul => .mul rd rs1 rs2
  | .dec => .dec rs1

/-- `c & mask = match` (R85). -/
def Op.fits (c : Cmd) (o : Op) : Bool := c &&& o.mask == o.pattern

/-- The fields that a row does not use are 0 in a word (R85, R86). -/
def unusedZero (c : Cmd) : Op → Prop
  | .zero => cmdBits c 19 16 = 0 ∧ cmdBits c 15 12 = 0 ∧ cmdBits c 11 0 = 0
  | .setw => cmdBits c 19 16 = 0 ∧ cmdBits c 15 12 = 0
  | .getw => cmdBits c 23 20 = 0 ∧ cmdBits c 15 12 = 0
  | .len => cmdBits c 23 20 = 0 ∧ cmdBits c 15 12 = 0 ∧ cmdBits c 11 0 = 0
  | .shl => cmdBits c 15 12 = 0
  | .shr => cmdBits c 15 12 = 0
  | .add => cmdBits c 11 0 = 0
  | .sub => cmdBits c 11 0 = 0
  | .mul => cmdBits c 11 0 = 0
  | .dec => cmdBits c 23 20 = 0 ∧ cmdBits c 15 12 = 0 ∧ cmdBits c 11 0 = 0

/-- Why a command word is ILLEGAL: its opcode is not assigned (R87), or a field its opcode does not use is not zero (R86). -/
inductive Illegal
  | unassignedOpcode
  | nonzeroUnusedField
deriving DecidableEq, Repr

/-- The reason a word that fits no row is ILLEGAL. -/
def illegalReason (c : Cmd) : Illegal :=
  if Op.all.any (fun o => o.code == opField c) then .nonzeroUnusedField else .unassignedOpcode

/-- The decode procedure (R88): the first row that the word fits, total over all words. -/
def decode (c : Cmd) : Except Illegal Instr :=
  match Op.all.find? (Op.fits c) with
  | some o => .ok (o.build (cmdBits c 23 20) (cmdBits c 19 16) (cmdBits c 15 12) (cmdBits c 11 0))
  | none => .error (illegalReason c)

/-- The row a command belongs to. -/
def Instr.op : Instr → Op
  | .zero _ => .zero
  | .setw _ _ => .setw
  | .getw _ _ => .getw
  | .len _ => .len
  | .shl _ _ _ => .shl
  | .shr _ _ _ => .shr
  | .add _ _ _ => .add
  | .sub _ _ _ => .sub
  | .mul _ _ _ => .mul
  | .dec _ => .dec

/-- `enc(op, rd, rs1, rs2, imm)` (R89). -/
def enc (op : Byte) (rd rs1 rs2 imm : Nat) : Cmd :=
  BitVec.ofNat 32 (op.toNat * 2 ^ 24 + rd * 2 ^ 20 + rs1 * 2 ^ 16 + rs2 * 2 ^ 12 + imm)

/-- The command word of a well-formed command, unused fields 0 (R86, R89). -/
def encode : Instr → Cmd
  | .zero rd => enc Op.zero.code rd 0 0 0
  | .setw rd pos => enc Op.setw.code rd 0 0 pos
  | .getw rs1 pos => enc Op.getw.code 0 rs1 0 pos
  | .len rs1 => enc Op.len.code 0 rs1 0 0
  | .shl rd rs1 n => enc Op.shl.code rd rs1 0 n
  | .shr rd rs1 n => enc Op.shr.code rd rs1 0 n
  | .add rd rs1 rs2 => enc Op.add.code rd rs1 rs2 0
  | .sub rd rs1 rs2 => enc Op.sub.code rd rs1 rs2 0
  | .mul rd rs1 rs2 => enc Op.mul.code rd rs1 rs2 0
  | .dec rs1 => enc Op.dec.code 0 rs1 0 0

/-- The command word that a row of spec/opcode_table.json stands for: the low 32 bits of the CMD write (R80), of which the
bits above `nbits` are 0. -/
def tableWord (nbits w : Nat) : Cmd := BitVec.ofNat 32 (w % 2 ^ nbits)

/-- What the decoder reads from a word of the opcode table; none where the word is ILLEGAL. -/
def decodeTableWord (nbits w : Nat) : Option Instr :=
  match decode (tableWord nbits w) with
  | .ok i => some i
  | .error _ => none

end Sys2Proof
end

