-- ==== Sys2Proof/Machine/State.lean ====
section
/-! DEFINITION. The state of the block and of its host as plain data (10_state.md; R17), its value after reset (R41), and the
reasons a step can stop. -/

namespace Sys2Proof.Machine

open Sys2Proof

/-- A word of the register file (R21, R22). `written` is the spec's definedness of the word. While it is false `value` is a
placeholder that no read returns: such a read is a free value. -/
structure RegWord where
  value : Word
  written : Bool
deriving DecidableEq, Repr

/-- A register word after reset: not written (R22). Its placeholder is 0 (log 1, DESIGN CHOICE). -/
def RegWord.unwritten : RegWord := ⟨0#64, false⟩

/-- The fields of STATUS (R24); reserved bits and ERRCLR hold no state. -/
structure Status where
  busy : Bool
  z : Bool
  w : Bool
  ovr : Bool
  acc : Bool
  err : BitVec 4
  errop : Byte
deriving DecidableEq, Repr

/-- The fields of CTRL (R33); reserved bits hold no state. -/
structure Ctrl where
  ofe : Bool
  ufe : Bool
deriving DecidableEq, Repr

/-- The widths of host accesses (R53, R54). -/
inductive Width
  | b8 | b16 | b32 | b64
deriving DecidableEq, Repr

/-- What the host does to the block (R14, R90): bus reads and writes, the polling loop `WAIT`, and the reset input (R230). A
write carries the data on the bus, of which the access takes its own width. -/
inductive HostAction
  | read (off : Offset) (width : Width)
  | write (off : Offset) (width : Width) (v : Word)
  | waitIdle
  | reset
deriving DecidableEq, Repr

/-- Bytes by address: the digit buffer D, keyed by digit index (R38). Addresses rise strictly. A byte that is not listed is
unspecified: it reads as a free value (R38; log 3). -/
abbrev Memory := List Host.Cell

/-- The state. The first eight fields are the spec's (10_state.md; the parameters are what PARAM reports, R35); the last four
are the model's own: the latency still to pass (log 4), the count of free values drawn (log 2), the host's actions to come
(log 5), and the values its reads returned, newest first (log 6). -/
structure State where
  params : Params
  regs : List (List RegWord)
  data : Word
  status : Status
  ctrl : Ctrl
  declen : Word
  digits : Memory
  pending : Option Cmd
  delay : Nat
  draws : Nat
  host : List HostAction
  reads : List Word
deriving DecidableEq, Repr

/-- The block never stops with a fault: an error is a status code (R205), and a read of an unwritten word is a free value
(R22; log 1). So this type has no constructor: nobody raises a fault, and that is safe. -/
inductive Fault
deriving DecidableEq, Repr

/-- Why a step has no meaning. -/
inductive Refusal
  /-- Raised by exec's arm of a command that has no meaning yet; safe. No arm raises it now. -/
  | notModelled (mnemonic : String)
  /-- Raised by step when STATUS.ERR holds one of the reserved codes 5 to 15, which the block never writes (R204) and which a
  model refuses (93_implementation_defined.md I12; log 13); safe. -/
  | reservedErrorCode
deriving DecidableEq, Repr

/-- STATUS after reset (R41): all fields 0. -/
def Status.reset : Status := ⟨false, false, false, false, false, 0#4, 0#8⟩

/-- CTRL after reset (R41). -/
def Ctrl.reset : Ctrl := ⟨false, false⟩

/-- The state after reset (R41, R230) of a block with parameters `p`, with the model's own fields at their first values. -/
def State.resetOf (p : Params) : State where
  params := p
  regs := List.replicate p.nreg (List.replicate p.n RegWord.unwritten)
  data := 0#64
  status := Status.reset
  ctrl := Ctrl.reset
  declen := 0#64
  digits := []
  pending := none
  delay := 0
  draws := 0
  host := []
  reads := []

/-- The state after reset of the block with the default parameters, N = 11 and NREG = 16 (R7, R8; log 8). -/
def State.reset : State := State.resetOf Params.default

end Sys2Proof.Machine
end

