-- ==== Sys2Proof/Machine/BigNum.lean ====
section
/-! DEFINITION. Multi-word values (R13) and the five arithmetic units over them (R1): the carry chain (R130), the borrow chain
(R135), the shifter (R105, R110), the multiplier (R140 to R142) and the digit-doubling converter (R160, R161, R166). -/

namespace Sys2Proof.Machine

open Sys2Proof

/-! ## Values -/

/-- `val(b) = Σ w[i]·2^(64 i)`, least significant word first (R13). -/
def val : List Word → Nat
  | [] => 0
  | w :: ws => w.toNat + 2 ^ 64 * val ws

/-- The `n` words of an integer: `w[i] = floor(X / 2^(64 i)) mod 2^64` (R13). -/
def wordsOf : Nat → Nat → List Word
  | 0, _ => []
  | n + 1, x => BitVec.ofNat 64 x :: wordsOf n (x / 2 ^ 64)

/-- `bit(X, j) = floor(X / 2^j) mod 2` (R13). -/
def natBit (x j : Nat) : Nat := x / 2 ^ j % 2

/-- The loop of LEN (R104), from position `i` with the count so far. -/
def lenFrom : Nat → Nat → List Word → Nat
  | _, l, [] => l
  | i, l, w :: ws => lenFrom (i + 1) (if w = 0#64 then l else i + 1) ws

/-- The significant word count (R104). -/
def sigWords (ws : List Word) : Nat := lenFrom 0 0 ws

/-! ## Adder and subtractor -/

/-- The carry chain of ADD (R130), with the carry into the first word: the sum words and the carry out. -/
def addChain : Nat → List Word → List Word → List Word × Nat
  | c, a :: as, b :: bs =>
    let s := a.toNat + b.toNat + c
    let r := addChain (s / 2 ^ 64) as bs
    (BitVec.ofNat 64 s :: r.1, r.2)
  | c, _, _ => ([], c)

/-- The borrow chain of SUB (R135), with the borrow into the first word: the difference words and the borrow out. -/
def subChain : Nat → List Word → List Word → List Word × Nat
  | bo, a :: as, b :: bs =>
    let d : Int := (a.toNat : Int) - b.toNat - bo
    let r := subChain (if d < 0 then 1 else 0) as bs
    (BitVec.ofInt 64 d :: r.1, r.2)
  | bo, _, _ => ([], bo)

/-! ## Shifter -/

/-- The words of SHL by `n` (R105), given the word below the first one: the high `n` bits of the word below come in at the
bottom. The shift by `64 - n` is not evaluated for `n = 0` (R107). -/
def shlWords (n : Nat) : Word → List Word → List Word
  | _, [] => []
  | below, a :: as => (a <<< n ||| (if 0 < n then below >>> (64 - n) else 0#64)) :: shlWords n a as

/-- `lost` of SHL (R105): the bits shifted out above the top word. -/
def shlLost (n : Nat) (ws : List Word) : Word :=
  if 0 < n then ws.getLastD 0#64 >>> (64 - n) else 0#64

/-- The words of SHR by `n` (R110): the low `n` bits of the word above come in at the top. -/
def shrWords (n : Nat) : List Word → List Word
  | [] => []
  | a :: as => (a >>> n ||| (if 0 < n then as.headD 0#64 <<< (64 - n) else 0#64)) :: shrWords n as

/-- Left shifts by each of the given amounts in turn, with whether a nonzero bit was lost in any of them (R244). -/
def shlSteps : List Nat → List Word → List Word × Bool
  | [], ws => (ws, false)
  | n :: ns, ws =>
    let r := shlSteps ns (shlWords n 0#64 ws)
    (r.1, (shlLost n ws != 0#64) || r.2)

/-- Right shifts by each of the given amounts in turn (R244). -/
def shrSteps : List Nat → List Word → List Word
  | [], ws => ws
  | n :: ns, ws => shrSteps ns (shrWords n ws)

/-- The amounts that compose a shift by `s`: `floor(s / 63)` of 63 and the rest (R244). -/
def shiftAmounts (s : Nat) : List Nat := List.replicate (s / 63) 63 ++ [s % 63]

/-! ## Multiplier -/

/-- The architectural product (R140): `P mod 2^M` in `n` words, and whether `P ≥ 2^M`. -/
def mulWords (n : Nat) (a b : List Word) : List Word × Bool :=
  let p := val a * val b
  (wordsOf n (p % 2 ^ (64 * n)), decide (2 ^ (64 * n) ≤ p))

/-- The naive shift-and-add loop (R141) over the block's own adder and shifter: `k` bit positions of `b`, from `j` up. -/
def mulNaiveFrom (b : Nat) : Nat → Nat → List Word → List Word → List Word
  | 0, _, acc, _ => acc
  | k + 1, j, acc, sh =>
    mulNaiveFrom b k (j + 1) (if natBit b j = 1 then (addChain 0 acc sh).1 else acc) (shlWords 1 0#64 sh)

/-- The naive form of MUL (R141): all `64·N` bit positions of `b`. -/
def mulNaive (a b : List Word) : List Word :=
  mulNaiveFrom (val b) (64 * b.length) 0 (List.replicate a.length 0#64) a

/-- The number of trailing zero bits of `x`, looking at no more than `fuel` bits. -/
def trailingZeros : Nat → Nat → Nat
  | 0, _ => 0
  | fuel + 1, x => if x % 2 = 0 then trailingZeros fuel (x / 2) + 1 else 0

/-- The zero-skipping loop (R142): `m` is the width of the multiplier in bits, and each round clears one set bit of `bb`, so
`m` rounds of fuel suffice. The long shifts are made in steps of at most 63 bits. -/
def mulSkipFrom (m : Nat) : Nat → Nat → List Word → List Word → List Word
  | 0, _, acc, _ => acc
  | fuel + 1, bb, acc, sh =>
    if bb = 0 then acc
    else
      let t := trailingZeros m bb
      let sh' := (shlSteps (shiftAmounts t) sh).1
      mulSkipFrom m fuel (bb / 2 ^ t / 2) (addChain 0 acc sh').1 (shlWords 1 0#64 sh')

/-- The zero-skipping form of MUL (R142). -/
def mulSkip (a b : List Word) : List Word :=
  mulSkipFrom (64 * b.length) (64 * b.length) (val b) (List.replicate a.length 0#64) a

/-! ## Binary to decimal -/

/-- Step (1) of DEC (R160): every digit doubled, carries propagated from the last (least significant) digit to the first; the
digits, and the carry out of the first. -/
def doubleDigits : List Nat → List Nat × Nat
  | [] => ([], 0)
  | d :: ds =>
    let r := doubleDigits ds
    let t := 2 * d + r.2
    if 10 ≤ t then ((t - 10) :: r.1, 1) else (t :: r.1, 0)

/-- Step (2) of DEC (R160): the bit is added into the last digit. -/
def addToLast (b : Nat) : List Nat → List Nat
  | [] => []
  | [d] => [d + b]
  | d :: e :: ds => d :: addToLast b (e :: ds)

/-- The loop of DEC (R160) over bits `j - 1` down to 0 of `a`. -/
def decLoop (a : Nat) : Nat → List Nat → List Nat
  | 0, ds => ds
  | j + 1, ds => decLoop a j (addToLast (natBit a j) (doubleDigits ds).1)

/-- The digits of DEC (R160): `m` bits of `a` into `len` digits that start at 0. -/
def decDigits (m len a : Nat) : List Nat := decLoop a m (List.replicate len 0)

/-- `first(d)` (R161): the least index with a nonzero digit, or the last index. -/
def firstDigit : List Nat → Nat
  | [] => 0
  | [_] => 0
  | d :: e :: ds => if d = 0 then firstDigit (e :: ds) + 1 else 0

/-- The number that decimal digits stand for, most significant first (R162). -/
def digitsVal : List Nat → Nat
  | [] => 0
  | d :: ds => d * 10 ^ ds.length + digitsVal ds

/-- Every entry is a decimal digit (R162). -/
def AllDigits (ds : List Nat) : Prop := ∀ d ∈ ds, d ≤ 9

/-- The least significant digit, which step (2) adds a bit to (R160, R163); 0 where there is none. -/
def lastDigit (ds : List Nat) : Nat := ds.getLastD 0

/-- The ASCII byte of a digit, `0x30 + d` (R38, R160). -/
def asciiDigit (d : Nat) : Byte := BitVec.ofNat 8 (0x30 + d)

/-- The classic circuit (R166): add 3 to every 4-bit digit that is at least 5, then shift the digits left by one bit with the
next bit entering at the bottom; the digits, and the bit shifted out of the first. -/
def dabbleStep (b : Nat) : List Nat → List Nat × Nat
  | [] => ([], b)
  | d :: ds =>
    let r := dabbleStep b ds
    let x := if 5 ≤ d then d + 3 else d
    ((2 * x + r.2) % 16 :: r.1, (2 * x + r.2) / 16)

end Sys2Proof.Machine
end

