-- ==== Sys2Proof/Machine/Ops.lean ====
section
/-! DEFINITION. The named operations over the state: reading and writing registers (R21, R22), the digit buffer as memory
(R38), completing a command (R25, R39), raising an error (R205) and the return from one (R208). -/

namespace Sys2Proof.Machine

open Sys2Proof

/-! ## The digit buffer as memory -/

/-- The canonical form: addresses rise strictly. An unlisted byte is unspecified (R38), so no listed byte equals it. -/
def Memory.wf (m : Memory) : Bool := decide (m.Pairwise fun a b => a.1 < b.1)

/-- The byte at an address; none where nothing is listed. -/
def Memory.get? : Memory → Nat → Option Byte
  | [], _ => none
  | c :: m, a => if c.1 = a then some c.2 else Memory.get? m a

/-- Bytes laid out from an address up. -/
def Memory.ofBytes : Nat → List Byte → Memory
  | _, [] => []
  | a, b :: bs => (a, b) :: Memory.ofBytes (a + 1) bs

/-! ## Registers -/

/-- Reading one register word: its value, or a free value where no command has written it (R22; log 2). -/
def RegWord.read (draw : Nat) (site : Config.Site) (w : RegWord) : Word :=
  if w.written then w.value else Config.uninit draw site

/-- A word that a command has written (R22). -/
def RegWord.ofWord (v : Word) : RegWord := ⟨v, true⟩

/-- Register `r` of the file; an index the block does not have names no words. -/
def State.reg (s : State) (r : Nat) : List RegWord := s.regs.getD r []

/-- All words of `b[r]`, read at once (R15), with the place each free value is drawn for. -/
def State.readReg (s : State) (site : Nat → Config.Site) (r : Nat) : List Word :=
  (s.reg r).mapIdx fun i w => w.read s.draws (site i)

/-- `b[r] <- R`: all words written (R13, R101). -/
def State.writeReg (s : State) (r : Nat) (ws : List Word) : State :=
  { s with regs := s.regs.set r (ws.map RegWord.ofWord) }

/-- `b[r].w[pos] <- v`: one word written, the others as they were (R102). -/
def State.writeWord (s : State) (r pos : Nat) (v : Word) : State :=
  { s with regs := s.regs.set r ((s.reg r).set pos (RegWord.ofWord v)) }

/-- `DATA <- v` (R23). -/
def State.writeData (s : State) (v : Word) : State := { s with data := v }

/-- The digit buffer written in full, and DECLEN (R160, R161). -/
def State.writeDigits (s : State) (bs : List Byte) (len : Word) : State :=
  { s with digits := Memory.ofBytes 0 bs, declen := len }

/-! ## Completion and errors -/

/-- Completion of a command (R25, R39): BUSY and pending cleared. The next free value is a new draw (log 2). -/
def State.complete (s : State) : State :=
  { s with
    status := { s.status with busy := false }
    pending := none
    delay := 0
    draws := s.draws + 1 }

/-- The errors the block raises (R200). The codes 5 to 15 are reserved and never raised (R204). -/
inductive Error
  | illegal
  | index
  | underflow
  | overflow
deriving DecidableEq, Repr

/-- The code of an error in STATUS.ERR (R200). -/
def Error.code : Error → BitVec 4
  | .illegal => 1#4
  | .index => 2#4
  | .underflow => 3#4
  | .overflow => 4#4

/-- Error entry (R205): ERR and ERROP recorded, the command completed, nothing else changed. -/
def State.raise (s : State) (e : Error) (op : Byte) : State :=
  State.complete { s with status := { s.status with err := e.code, errop := op } }

/-- The return from an error (R208): ERRCLR sets ERR and ERROP to 0 (R31). -/
def State.clearError (s : State) : State :=
  { s with status := { s.status with err := 0#4, errop := 0#8 } }

end Sys2Proof.Machine
end

