-- ==== Sys2Proof/Machine/Operands.lean ====
section
/-! DEFINITION. The operand forms: register fields and their check (R84, R201, `regcheck` of 40_wordops.md), word positions
and shift amounts (R83, R201), and source registers read whole (R15). -/

namespace Sys2Proof.Machine

open Sys2Proof

/-- `regcheck` fails for a used register field that holds NREG or more (R84, R201). -/
def State.badReg (s : State) (r : Nat) : Bool := decide (s.params.nreg ≤ r)

/-- `regcheck` fails for one of the fields, which are checked in the order given (R207). All of these failures are INDEX. -/
def State.badRegs (s : State) : List Nat → Bool
  | [] => false
  | r :: rs => s.badReg r || s.badRegs rs

/-- A word position is out of range (R83, R201). -/
def State.badPos (s : State) (pos : Nat) : Bool := decide (s.params.n ≤ pos)

/-- A shift amount is out of range (R83, R201). -/
def badAmount (n : Nat) : Bool := decide (64 ≤ n)

/-- The words of the first source register. -/
def State.src1 (s : State) (r : Nat) : List Word := s.readReg Config.Site.rs1 r

/-- The words of the second source register. -/
def State.src2 (s : State) (r : Nat) : List Word := s.readReg Config.Site.rs2 r

/-- One word of the first source register (R103). -/
def State.srcWord (s : State) (r pos : Nat) : Word :=
  ((s.reg r).getD pos RegWord.unwritten).read s.draws (.rs1 pos)

end Sys2Proof.Machine
end

