-- ==== Sys2Proof/Machine/Flags.lean ====
section
/-! DEFINITION. The flags Z and W (R26, R27), CTRL and STATUS as words (R24, R33), PARAM (R35), and the shared end of the
commands that write a result and flags. -/

namespace Sys2Proof.Machine

open Sys2Proof

/-- Z and W from a result and whether it wrapped (R26, R27). -/
def State.setFlags (s : State) (result : List Word) (wrapped : Bool) : State :=
  { s with status := { s.status with z := decide (val result = 0), w := wrapped } }

/-- The successful end of a command with a result (R42): `b[rd]`, Z and W written, the command completed. -/
def State.finish (s : State) (rd : Nat) (result : List Word) (wrapped : Bool) : State :=
  ((s.writeReg rd result).setFlags result wrapped).complete

/-- The end of a command whose wrapped result is an error while `enable` is set (R202, R203): the error, or the result. -/
def State.finishOr (s : State) (enable : Bool) (e : Error) (op : Op) (rd : Nat) (result : List Word)
    (wrapped : Bool) : State :=
  if enable && wrapped then s.raise e op.code else s.finish rd result wrapped

/-- A bit of a register, as a number. -/
def bitAt (b : Bool) (i : Nat) : Nat := if b then 2 ^ i else 0

/-- STATUS as the host reads it (R24); reserved bits and ERRCLR read 0. -/
def Status.word (st : Status) : Word :=
  BitVec.ofNat 64 (bitAt st.busy 0 + bitAt st.z 1 + bitAt st.w 2 + bitAt st.ovr 3 + bitAt st.acc 4
    + st.err.toNat * 2 ^ 8 + st.errop.toNat * 2 ^ 16)

/-- CTRL as the host reads it (R33). -/
def Ctrl.word (c : Ctrl) : Word := BitVec.ofNat 64 (bitAt c.ofe 0 + bitAt c.ufe 1)

/-- CTRL as the host writes it: bits 1:0 only (R33, R56). -/
def Ctrl.ofWord (v : Word) : Ctrl := ⟨v.getLsbD 0, v.getLsbD 1⟩

/-- PARAM (R35): N in bits 15:0, NREG in 23:16, WL = 64 in 31:24, DLEN in 47:32. -/
def Params.word (p : Params) : Word :=
  BitVec.ofNat 64 (p.n + p.nreg * 2 ^ 16 + 64 * 2 ^ 24 + p.dlen * 2 ^ 32)

end Sys2Proof.Machine
end

