-- ==== Sys2Proof/Machine/WordOps.lean ====
section
/-! DEFINITION. The meanings of ZERO, SETW, GETW, LEN, SHL and SHR (40_wordops.md). Every check stands in the order of R207. -/

namespace Sys2Proof.Machine

open Sys2Proof

/-- What executing a command answers. -/
abbrev Result := Host.Outcome State Fault Refusal

/-- ZERO (R100). -/
def execZero (rd : Nat) (s : State) : Result :=
  if s.badRegs [rd] then .next (s.raise .index Op.zero.code)
  else .next (s.writeReg rd (List.replicate s.params.n 0#64)).complete

/-- SETW (R102). -/
def execSetw (rd pos : Nat) (s : State) : Result :=
  if s.badRegs [rd] then .next (s.raise .index Op.setw.code)
  else if s.badPos pos then .next (s.raise .index Op.setw.code)
  else .next (s.writeWord rd pos s.data).complete

/-- GETW (R103). -/
def execGetw (rs1 pos : Nat) (s : State) : Result :=
  if s.badRegs [rs1] then .next (s.raise .index Op.getw.code)
  else if s.badPos pos then .next (s.raise .index Op.getw.code)
  else .next (s.writeData (s.srcWord rs1 pos)).complete

/-- LEN (R104). -/
def execLen (rs1 : Nat) (s : State) : Result :=
  if s.badRegs [rs1] then .next (s.raise .index Op.len.code)
  else .next (s.writeData (BitVec.ofNat 64 (sigWords (s.src1 rs1)))).complete

/-- SHL (R105). -/
def execShl (rd rs1 n : Nat) (s : State) : Result :=
  if s.badRegs [rd, rs1] then .next (s.raise .index Op.shl.code)
  else if badAmount n then .next (s.raise .index Op.shl.code)
  else
    let a := s.src1 rs1
    .next (s.finishOr s.ctrl.ofe .overflow .shl rd (shlWords n 0#64 a) (shlLost n a != 0#64))

/-- SHR (R110). -/
def execShr (rd rs1 n : Nat) (s : State) : Result :=
  if s.badRegs [rd, rs1] then .next (s.raise .index Op.shr.code)
  else if badAmount n then .next (s.raise .index Op.shr.code)
  else .next (s.finish rd (shrWords n (s.src1 rs1)) false)

end Sys2Proof.Machine
end

