-- ==== Sys2Proof/Machine/Arith.lean ====
section
/-! DEFINITION. The meanings of ADD, SUB and MUL (41_arithmetic.md). Both sources are read before the destination is written
(R15). -/

namespace Sys2Proof.Machine

open Sys2Proof

/-- ADD (R130). -/
def execAdd (rd rs1 rs2 : Nat) (s : State) : Result :=
  if s.badRegs [rd, rs1, rs2] then .next (s.raise .index Op.add.code)
  else
    let r := addChain 0 (s.src1 rs1) (s.src2 rs2)
    .next (s.finishOr s.ctrl.ofe .overflow .add rd r.1 (r.2 == 1))

/-- SUB (R135). -/
def execSub (rd rs1 rs2 : Nat) (s : State) : Result :=
  if s.badRegs [rd, rs1, rs2] then .next (s.raise .index Op.sub.code)
  else
    let r := subChain 0 (s.src1 rs1) (s.src2 rs2)
    .next (s.finishOr s.ctrl.ufe .underflow .sub rd r.1 (r.2 == 1))

/-- MUL (R140): the architectural result. The internal forms of R141 and R142 give the same words (R10; log 14). -/
def execMul (rd rs1 rs2 : Nat) (s : State) : Result :=
  if s.badRegs [rd, rs1, rs2] then .next (s.raise .index Op.mul.code)
  else
    let r := mulWords s.params.n (s.src1 rs1) (s.src2 rs2)
    .next (s.finishOr s.ctrl.ofe .overflow .mul rd r.1 r.2)

end Sys2Proof.Machine
end

