-- ==== Sys2Proof/Machine/Decimal.lean ====
section
/-! DEFINITION. The meaning of DEC (42_decimal.md). -/

namespace Sys2Proof.Machine

open Sys2Proof

/-- DEC (R160): the digits of `b[rs1]` in ASCII to the whole digit buffer, their trimmed number to DECLEN (R161). -/
def execDec (rs1 : Nat) (s : State) : Result :=
  if s.badRegs [rs1] then .next (s.raise .index Op.dec.code)
  else
    let d := decDigits s.params.bits s.params.dlen (val (s.src1 rs1))
    .next (s.writeDigits (d.map asciiDigit) (BitVec.ofNat 64 (s.params.dlen - firstDigit d))).complete

end Sys2Proof.Machine
end

