-- ==== Sys2Proof/Machine/Dispatch.lean ====
section
/-! DEFINITION. One arm per command (R85). -/

namespace Sys2Proof.Machine

open Sys2Proof

/-- The meaning of a command (R85). -/
def exec (i : Instr) (s : State) : Host.Outcome State Fault Refusal :=
  match i with
  -- 40_wordops.md
  | .zero rd => Sys2Proof.Machine.execZero rd s
  | .setw rd pos => Sys2Proof.Machine.execSetw rd pos s
  | .getw rs1 pos => Sys2Proof.Machine.execGetw rs1 pos s
  | .len rs1 => Sys2Proof.Machine.execLen rs1 s
  | .shl rd rs1 n => Sys2Proof.Machine.execShl rd rs1 n s
  | .shr rd rs1 n => Sys2Proof.Machine.execShr rd rs1 n s
  -- 41_arithmetic.md
  | .add rd rs1 rs2 => Sys2Proof.Machine.execAdd rd rs1 rs2 s
  | .sub rd rs1 rs2 => Sys2Proof.Machine.execSub rd rs1 rs2 s
  | .mul rd rs1 rs2 => Sys2Proof.Machine.execMul rd rs1 rs2 s
  -- 42_decimal.md
  | .dec rs1 => Sys2Proof.Machine.execDec rs1 s

end Sys2Proof.Machine
end

