-- ==== Sys2Proof/Machine/HostPort.lean ====
section
/-! DEFINITION. The host window (20_memory.md): its map (R51), reads (R52 to R54, R57, R58, R61, R62), writes (R53 to R56),
command acceptance (R55), and the host's next action (R17, R65, R90). -/

namespace Sys2Proof.Machine

open Sys2Proof

/-- What an offset of the window belongs to (R51). -/
inductive Region
  | cmd | data | status | ctrl | declen | param
  | unmapped
  | digits (i : Nat)
deriving DecidableEq, Repr

/-- The map of the window by the offset an access starts at (R51; log 12). -/
def regionOf (off : Offset) : Region :=
  let o := off.toNat
  if o < 0x08 then .cmd
  else if o < 0x10 then .data
  else if o < 0x18 then .status
  else if o < 0x20 then .ctrl
  else if o < 0x28 then .declen
  else if o < 0x30 then .param
  else if o < 0x10000 then .unmapped
  else .digits (o - 0x10000)

/-- A 64-bit access at an 8-byte-aligned offset (R53). -/
def aligned64 (off : Offset) (width : Width) : Bool := width == .b64 && off.toNat % 8 == 0

/-- Whether the block supports a read (R53, R54). -/
def readSupported (off : Offset) (width : Width) : Bool :=
  match regionOf off with
  | .unmapped => false
  | .digits _ => width == .b8 || aligned64 off width
  | .cmd | .data | .status | .ctrl | .declen | .param => aligned64 off width

/-- Whether the block supports a write (R52, R53, R54): the digit window takes none. -/
def writeSupported (off : Offset) (width : Width) : Bool :=
  match regionOf off with
  | .unmapped | .digits _ => false
  | .cmd | .data | .status | .ctrl | .declen | .param => aligned64 off width

/-- ACC set (R29). -/
def State.setAcc (s : State) : State := { s with status := { s.status with acc := true } }

/-- OVR set: a host write was dropped (R28). -/
def State.setOvr (s : State) : State := { s with status := { s.status with ovr := true } }

/-- The byte at index `i` of the digit window (R52): D[i], a free value where no DEC has written it (R38), 0x00 from DLEN on. -/
def State.digitByte (s : State) (i : Nat) : Byte :=
  if i < s.params.dlen then
    match Memory.get? s.digits i with
    | some b => b
    | none => (Config.uninit s.draws (.digit i)).setWidth 8
  else 0#8

/-- Bytes `i`, `i + 1`, … of the digit window as one number, the byte at the lowest offset in the lowest bits (R61). -/
def State.digitsLE (s : State) : Nat → Nat → Nat
  | 0, _ => 0
  | k + 1, i => (s.digitByte i).toNat + 2 ^ 8 * s.digitsLE k (i + 1)

/-- A reply that is open: any value of the access's width (R58; log 10). -/
def State.openReply (s : State) (width : Width) : Word :=
  match width with
  | .b8 => (Config.uninit s.draws .bus) &&& 0xFF#64
  | .b16 | .b32 | .b64 => Config.uninit s.draws .bus

/-- The reply to a supported read (R51, R52, R58, R61). -/
def State.readReply (s : State) (off : Offset) (width : Width) : Word :=
  match regionOf off with
  | .cmd => 0#64
  | .status => s.status.word
  | .ctrl => s.ctrl.word
  | .param => Params.word s.params
  | .data => if s.status.busy then s.openReply width else s.data
  | .declen => if s.status.busy then s.openReply width else s.declen
  | .digits i =>
    if s.status.busy then s.openReply width
    else if width == .b8 then BitVec.ofNat 64 (s.digitByte i).toNat
    else BitVec.ofNat 64 (s.digitsLE 8 i)
  | .unmapped => 0#64

/-- The reply to any read: 0 where it is not supported (R53, R54). The check of the access comes first: an unsupported read of
DATA, DECLEN or the digit window replies 0 also while BUSY is 1, where a supported one is open by R58 (log 21, DESIGN CHOICE: no
rule orders the two). -/
def State.replyTo (s : State) (off : Offset) (width : Width) : Word :=
  if readSupported off width then s.readReply off width else 0#64

/-- A host read (R57): its reply is recorded (log 6), an unsupported one sets ACC, and the next free value is a new draw. -/
def State.hostRead (s : State) (off : Offset) (width : Width) : State :=
  let t := if readSupported off width then s else s.setAcc
  { t with reads := s.replyTo off width :: s.reads, draws := s.draws + 1 }

/-- A CMD write (R55): dropped with OVR while BUSY or while ERR is not 0, else accepted. The latency is a free value (R246;
log 4). -/
def State.writeCmd (s : State) (v : Word) : State :=
  if s.status.busy then s.setOvr
  else if s.status.err ≠ 0#4 then s.setOvr
  else
    { s with
      pending := some (v.setWidth 32)
      status := { s.status with busy := true }
      delay := Config.lat s.draws (v.setWidth 32)
      draws := s.draws + 1 }

/-- A STATUS write (R24, R31): bits 3 and 4 clear OVR and ACC, bit 15 clears ERR and ERROP; always accepted. -/
def State.writeStatus (s : State) (v : Word) : State :=
  let t := if v.getLsbD 15 then s.clearError else s
  { t with status := { t.status with
      ovr := t.status.ovr && !v.getLsbD 3
      acc := t.status.acc && !v.getLsbD 4 } }

/-- A DATA write (R56). -/
def State.hostWriteData (s : State) (v : Word) : State :=
  if s.status.busy then s.setOvr else s.writeData v

/-- A CTRL write (R56). -/
def State.writeCtrl (s : State) (v : Word) : State :=
  if s.status.busy then s.setOvr else { s with ctrl := Ctrl.ofWord v }

/-- A host write (R53 to R56): an unsupported one is ignored and sets ACC; DECLEN and PARAM ignore theirs and set nothing. The
check of the access comes first: an unsupported write at the CMD, DATA or CTRL offset sets ACC and not OVR also where a
supported one would be dropped, while BUSY is 1 or, at CMD, while ERR is not 0 (log 20, DESIGN CHOICE: no rule orders the two). -/
def State.hostWrite (s : State) (off : Offset) (width : Width) (v : Word) : State :=
  if writeSupported off width then
    match regionOf off with
    | .cmd => s.writeCmd v
    | .data => s.hostWriteData v
    | .status => s.writeStatus v
    | .ctrl => s.writeCtrl v
    | .declen | .param | .unmapped | .digits _ => s
  else s.setAcc

/-- The reset input (R230, R231): every piece of the block's state at its reset value, a pending command abandoned. The host
goes on with what it has to do and keeps what it has read (log 9). -/
def State.resetInput (s : State) : State :=
  { State.resetOf s.params with host := s.host, reads := s.reads, draws := s.draws + 1 }

/-- One host action. `WAIT` is the polling loop (R90): it ends at a STATUS read that returns BUSY = 0 and otherwise polls
again at the next step; such a read has no side effect (R57; log 7). -/
def State.perform (s : State) (a : HostAction) (rest : List HostAction) : State :=
  match a with
  | .read off width => State.hostRead { s with host := rest } off width
  | .write off width v => State.hostWrite { s with host := rest } off width v
  | .waitIdle => if s.status.busy then s else { s with host := rest }
  | .reset => State.resetInput { s with host := rest }

/-- The host's next action in its program order (R65), or nothing to do. -/
def State.hostStep (s : State) : State :=
  match s.host with
  | [] => s
  | a :: rest => s.perform a rest

/-- A step that is not the core's: one step of the latency passes and the host acts (log 4, log 5). -/
def State.tick (s : State) : State := State.hostStep { s with delay := s.delay - 1 }

/-- The command whose execution is due: the pending one, when its latency has passed (R39; log 4). -/
def State.due (s : State) : Option Cmd := if s.delay = 0 then s.pending else none

end Sys2Proof.Machine
end

