-- ==== Sys2Proof/Machine/Execute.lean ====
section
/-! DEFINITION. The core's step (R17, R39): decode the pending command and execute it, or raise ILLEGAL. -/

namespace Sys2Proof.Machine

open Sys2Proof

/-- STATUS.ERR holds a reserved code, which the block never writes (R204). -/
def State.errReserved (s : State) : Bool := decide (4 < s.status.err.toNat)

/-- Executing a command word (R88): an ILLEGAL one changes only ERR and ERROP (R87, R205). -/
def runCommand (c : Cmd) (s : State) : Result :=
  match decode c with
  | .ok i => exec i s
  | .error _ => .next (s.raise .illegal (opField c))

/-- The state in which the command word `c` has been accepted and is due (R39, R55; log 15). -/
def State.withPending (s : State) (c : Cmd) : State :=
  { s with pending := some c, delay := 0, status := { s.status with busy := true } }

end Sys2Proof.Machine
end

