-- ==== Sys2Proof/Machine/Step.lean ====
section
/-! DEFINITION. One step of the block and its host (R17, R39, R65), and the state in which a given word is the next command. -/

namespace Sys2Proof.Machine

open Sys2Proof

/-- One step: the core executes the pending command when it is due, else the host acts (log 5). A state with a reserved error
code is refused (93_implementation_defined.md I12; log 13). -/
def step (s : State) : Host.Outcome State Fault Refusal :=
  if s.errReserved then .refused .reservedErrorCode
  else
    match s.due with
    | some c => runCommand c s
    | none => .next s.tick

/-- `s` with a word of the opcode table accepted as the pending command and due at once (log 15). -/
def State.withFetchWord (s : State) (nbits w : Nat) : State := s.withPending (tableWord nbits w)

end Sys2Proof.Machine
end

