-- ==== Sys2Proof/Machine/HostProgram.lean ====
section
/-! DEFINITION. Host programs in the notation of R90: a command line, and the pseudo-instructions with their expansions (R91). -/

namespace Sys2Proof.Machine

open Sys2Proof

/-- The offsets of the registers (R51). -/
def offCmd : Offset := 0x00000#17
def offData : Offset := 0x00008#17
def offStatus : Offset := 0x00010#17
def offCtrl : Offset := 0x00018#17
def offDeclen : Offset := 0x00020#17
def offParam : Offset := 0x00028#17

/-- The offset of digit `i` in the digit window (R52). -/
def offDigit (i : Nat) : Offset := BitVec.ofNat 17 (0x10000 + i)

/-- `W <reg>, v` (R90). -/
def writeLine (off : Offset) (v : Word) : HostAction := .write off .b64 v

/-- A command line stands for the CMD write of its word and `WAIT` (R90). -/
def commandLine (i : Instr) : List HostAction :=
  [writeLine offCmd ((encode i).setWidth 64), .waitIdle]

/-- `MOV rd, rs` (R91). -/
def pseudoMov (rd rs : Nat) : Instr := .shl rd rs 0

/-- `DBL rd, rs` (R91). -/
def pseudoDbl (rd rs : Nat) : Instr := .add rd rs rs

/-- `LDW rd, pos, v` (R91). -/
def pseudoLdw (rd pos : Nat) (v : Word) : List HostAction :=
  writeLine offData v :: commandLine (.setw rd pos)

/-- `LDI rd, v` (R91). -/
def pseudoLdi (rd : Nat) (v : Word) : List HostAction :=
  writeLine offData v :: (commandLine (.zero rd) ++ commandLine (.setw rd 0))

/-- `ONE rd` (R91). -/
def pseudoOne (rd : Nat) : List HostAction := pseudoLdi rd 1#64

/-- `STW rs, pos` (R91). -/
def pseudoStw (rs pos : Nat) : List HostAction :=
  commandLine (.getw rs pos) ++ [.read offData .b64]

end Sys2Proof.Machine
end

