-- ==== Sys2Proof/Safety.lean ====
section
/-! DEFINITION. The terms claims use: the invariant of every state a run reaches, what a command leaves alone (R42, R205), and
when a run of a host program ends and has succeeded (R248). -/

namespace Sys2Proof.Machine

open Sys2Proof

/-- No DEC has completed since reset (R34, R38): nothing is listed, DECLEN is 0. -/
def State.digitsUnwritten (s : State) : Prop := s.digits = [] ∧ s.declen = 0#64

/-- The decimal digits that the buffer holds in ASCII (R38). -/
def digitValues (m : Memory) : List Nat := m.map fun c => c.2.toNat - 0x30

/-- A DEC has completed since reset (R34, R38, R161): each of the DLEN bytes is listed and is an ASCII digit, and DECLEN counts
the digits from the first significant one, at least 1 and at most DLEN - 1. -/
structure State.DigitsWritten (s : State) : Prop where
  addresses : s.digits.map (fun c => c.1) = List.range s.params.dlen
  ascii : ∀ c ∈ s.digits, 0x30 ≤ c.2.toNat ∧ c.2.toNat ≤ 0x39
  count : s.declen.toNat = s.params.dlen - firstDigit (digitValues s.digits)
  atLeastOne : 1 ≤ s.declen.toNat
  belowDlen : s.declen.toNat < s.params.dlen

/-- What holds of every state a run reaches. -/
structure State.Inv (s : State) : Prop where
  /-- N and NREG are in their legal ranges (R7, R8). -/
  paramsLegal : s.params.legal = true
  /-- There are NREG registers (R21). -/
  fileShape : s.regs.length = s.params.nreg
  /-- Each register has N words (R21). -/
  regShape : ∀ r ∈ s.regs, r.length = s.params.n
  /-- A word no command has written holds the placeholder (log 1). -/
  placeholders : ∀ r ∈ s.regs, ∀ w ∈ r, w.written = false → w.value = 0#64
  /-- BUSY is 1 exactly while a command is pending (R25, R39). -/
  busyIffPending : s.status.busy = s.pending.isSome
  /-- A command is pending only with ERR = 0 (R31, R55). -/
  noErrorWhilePending : s.pending.isSome = true → s.status.err = 0#4
  /-- The reserved codes are never in ERR (R204). -/
  errAssigned : s.status.err.toNat ≤ 4
  /-- ERROP is 0 while there is no error (R31, R32). -/
  erropCleared : s.status.err = 0#4 → s.status.errop = 0#8
  /-- No latency runs without a command (log 4). -/
  delayIdle : s.pending = none → s.delay = 0
  /-- The digit buffer and DECLEN are as after reset, or as a DEC leaves them (R34, R38). -/
  digitBuffer : s.digitsUnwritten ∨ s.DigitsWritten

/-- The value of a source operand as the command reads it (R13, R15, R22): of `b[rs1]`. -/
def State.val1 (s : State) (r : Nat) : Nat := val (s.src1 r)

/-- The value of a source operand as the command reads it: of `b[rs2]`. -/
def State.val2 (s : State) (r : Nat) : Nat := val (s.src2 r)

/-- The words a register holds once commands have written all of them (R22). -/
def State.regWords (s : State) (r : Nat) : List Word := (s.reg r).map RegWord.value

/-- Every word of `b[r]` has been written since reset (R22). -/
def State.defined (s : State) (r : Nat) : Prop := ∀ w ∈ s.reg r, w.written = true

/-- What every completed command does to the rest of the state (R25, R39, R42): BUSY and pending cleared, and nothing of the
parameters, CTRL, OVR, ACC or the host touched. -/
structure Completed (s t : State) : Prop where
  pending : t.pending = none
  busy : t.status.busy = false
  params : t.params = s.params
  ctrl : t.ctrl = s.ctrl
  ovr : t.status.ovr = s.status.ovr
  acc : t.status.acc = s.status.acc
  host : t.host = s.host
  reads : t.reads = s.reads

/-- ERR and ERROP as before: the command raised no error. -/
def sameError (s t : State) : Prop := t.status.err = s.status.err ∧ t.status.errop = s.status.errop

/-- Z and W as before. -/
def sameFlags (s t : State) : Prop := t.status.z = s.status.z ∧ t.status.w = s.status.w

/-- DECLEN as before, and every byte of the digit buffer as before. -/
def sameDigits (s t : State) : Prop :=
  t.declen = s.declen ∧ ∀ i, Memory.get? t.digits i = Memory.get? s.digits i

/-- Every register but `rd` as before, words and definedness. -/
def sameRegsBut (rd : Nat) (s t : State) : Prop := ∀ r, r ≠ rd → t.reg r = s.reg r

/-- Every register as before, words and definedness. -/
def sameRegs (s t : State) : Prop := t.regs = s.regs

/-- `t` is `s` after a successful command whose one destination is register `rd` with the value `v`, with flags Z and W
(R26, R27, R42): every word of `b[rd]` is written, and nothing else but Z and W has changed. -/
structure WroteResult (rd v : Nat) (wrapped : Prop) (s t : State) : Prop where
  completed : Completed s t
  noError : sameError s t
  defined : t.defined rd
  wordCount : (t.reg rd).length = s.params.n
  value : val (t.regWords rd) = v
  zFlag : t.status.z = true ↔ v = 0
  wFlag : t.status.w = true ↔ wrapped
  otherRegs : sameRegsBut rd s t
  data : t.data = s.data
  digits : sameDigits s t

/-- `t` is `s` after a command that ended in an error (R205): only ERR and ERROP have changed, beside the completion. -/
structure Raised (e : Error) (op : Byte) (s t : State) : Prop where
  completed : Completed s t
  err : t.status.err = e.code
  errop : t.status.errop = op
  flags : sameFlags s t
  regs : sameRegs s t
  data : t.data = s.data
  digits : sameDigits s t

/-- The register fields a command uses, in the order of their checks (R85, R207). -/
def usedRegs : Instr → List Nat
  | .zero rd => [rd]
  | .setw rd _ => [rd]
  | .getw rs1 _ => [rs1]
  | .len rs1 => [rs1]
  | .shl rd rs1 _ => [rd, rs1]
  | .shr rd rs1 _ => [rd, rs1]
  | .add rd rs1 rs2 => [rd, rs1, rs2]
  | .sub rd rs1 rs2 => [rd, rs1, rs2]
  | .mul rd rs1 rs2 => [rd, rs1, rs2]
  | .dec rs1 => [rs1]

/-- The commands that write a result and flags (R26, R42): their destination. -/
def resultDest : Instr → Option Nat
  | .shl rd _ _ => some rd
  | .shr rd _ _ => some rd
  | .add rd _ _ => some rd
  | .sub rd _ _ => some rd
  | .mul rd _ _ => some rd
  | .zero _ | .setw _ _ | .getw _ _ | .len _ | .dec _ => none

/-- The register a command writes (R42). -/
def destReg : Instr → Option Nat
  | .zero rd => some rd
  | .setw rd _ => some rd
  | .shl rd _ _ => some rd
  | .shr rd _ _ => some rd
  | .add rd _ _ => some rd
  | .sub rd _ _ => some rd
  | .mul rd _ _ => some rd
  | .getw _ _ | .len _ | .dec _ => none

/-- The command that the core executes in this step, if there is one and it is not ILLEGAL (R39, R88). -/
def State.running (s : State) : Option Instr :=
  match s.due with
  | some c => (match decode c with | .ok i => some i | .error _ => none)
  | none => none

/-- The host's action in this step, if it is the host's turn and it has something to do (R17). -/
def State.acting (s : State) : Option HostAction :=
  match s.due with
  | some _ => none
  | none => s.host.head?

/-- The INDEX condition on the immediate (R201): a position of N or more, an amount of 64 or more. -/
def badImm (p : Params) : Instr → Prop
  | .setw _ pos => p.n ≤ pos
  | .getw _ pos => p.n ≤ pos
  | .shl _ _ n => 64 ≤ n
  | .shr _ _ n => 64 ≤ n
  | .zero _ | .len _ | .add _ _ _ | .sub _ _ _ | .mul _ _ _ | .dec _ => False

/-- The INDEX condition (R201): a used register field of NREG or more, or the immediate out of range. -/
def indexCondition (p : Params) (i : Instr) : Prop := (∃ r ∈ usedRegs i, p.nreg ≤ r) ∨ badImm p i

/-- A host program has ended (R248): the host has nothing more to do and no command is pending. -/
def State.runEnded (s : State) : Prop := s.host = [] ∧ s.pending = none

/-- A host program that has ended has succeeded (R248): ERR, OVR and ACC are 0. -/
def State.runSucceeded (s : State) : Prop :=
  s.runEnded ∧ s.status.err = 0#4 ∧ s.status.ovr = false ∧ s.status.acc = false

end Sys2Proof.Machine
end

