-- ==== Sys2Proof/Certificates/Slice0/Obligations.lean ====
section
/-! DEFINITION. The statements about the model. Each docstring names the rule or section of spec/ it comes from. -/

open Sys2Proof
open Sys2Proof.Machine

/-! ## Encoding (30_encoding.md) -/

/-- Decoding the word of a well-formed command gives the command back, for every operand value its fields admit. -/
def Obligations.DecodeOfEncodeIsIdentity : Prop :=
  ∀ i : Instr, i.wellFormed = true → decode (encode i) = .ok i

/-- A decoded command is well formed and its word is the word it was decoded from: no two words mean one command. -/
def Obligations.EncodeOfDecodeIsIdentity : Prop :=
  ∀ (c : Cmd) (i : Instr), decode c = .ok i → i.wellFormed = true ∧ encode i = c

/-- R89: the encode function, unused fields 0, and its two examples. -/
def Obligations.EncodeFunctionAndExamples : Prop :=
  (∀ (op : Byte) (rd rs1 rs2 imm : Nat), rd < 16 → rs1 < 16 → rs2 < 16 → imm < 4096 →
    (enc op rd rs1 rs2 imm).toNat = op.toNat * 2 ^ 24 + rd * 2 ^ 20 + rs1 * 2 ^ 16 + rs2 * 2 ^ 12 + imm) ∧
  (∀ i : Instr, i.wellFormed = true → unusedZero (encode i) i.op) ∧
  encode (.add 2 0 1) = 0x20201000#32 ∧
  encode (.shl 1 1 10) = 0x1011000A#32

/-- One word of each row, written out in 95_test_vectors.md section 2, decodes to the command named there. -/
def Obligations.TestVectorWordsDecode : Prop :=
  decode 0x01300000#32 = .ok (.zero 3) ∧
  decode 0x02300001#32 = .ok (.setw 3 1) ∧
  decode 0x03030001#32 = .ok (.getw 3 1) ∧
  decode 0x04030000#32 = .ok (.len 3) ∧
  decode 0x10310004#32 = .ok (.shl 3 1 4) ∧
  decode 0x1131003F#32 = .ok (.shr 3 1 63) ∧
  decode 0x20312000#32 = .ok (.add 3 1 2) ∧
  decode 0x21332000#32 = .ok (.sub 3 3 2) ∧
  decode 0x30312000#32 = .ok (.mul 3 1 2) ∧
  decode 0x40010000#32 = .ok (.dec 1)

/-- R86: a word with an assigned opcode is ILLEGAL if a field the opcode does not use is not zero, the masks say so, it is
treated as a word with an unassigned opcode is, and the rule's example. -/
def Obligations.NonzeroUnusedFieldIsIllegal : Prop :=
  (∀ (c : Cmd) (o : Op), opField c = o.code → ¬ unusedZero c o → decode c = .error .nonzeroUnusedField) ∧
  (∀ (c : Cmd) (o : Op), o.fits c = true ↔ (opField c = o.code ∧ unusedZero c o)) ∧
  (∀ (c : Cmd) (e : Illegal) (s : State), decode c = .error e → runCommand c s = .next (s.raise .illegal (opField c))) ∧
  decode 0x01010000#32 = .error .nonzeroUnusedField

/-- R87: the reserved opcodes, the all-zero word, no other space than the ten commands, and what an ILLEGAL command does. -/
def Obligations.ReservedOpcodesAreIllegal : Prop :=
  (∀ c : Cmd,
    (let n := (opField c).toNat
     n = 0x00 ∨ (0x05 ≤ n ∧ n ≤ 0x0F) ∨ (0x12 ≤ n ∧ n ≤ 0x1F) ∨ (0x22 ≤ n ∧ n ≤ 0x2F) ∨ (0x31 ≤ n ∧ n ≤ 0x3F)
       ∨ (0x41 ≤ n ∧ n ≤ 0xFF)) ↔
    decode c = .error .unassignedOpcode) ∧
  decode 0x00000000#32 = .error .unassignedOpcode ∧
  (∀ c : Cmd, (∃ e, decode c = .error e) ∨ ∃ i, decode c = .ok i ∧ opField c = i.op.code) ∧
  (∀ (s : State) (c : Cmd) (e : Illegal), s.status.err.toNat ≤ 4 → s.due = some c → decode c = .error e →
    ∃ t, step s = .next t ∧ Raised .illegal (opField c) s t)

/-! ## The step (R17, R39, R65, R246, R247) -/

/-- A step with a due command is the execution of that command, as decoded; nothing is added around it. That the step is the
core's, and not the host's, exactly with a delay of 0 is the model's choice (log 4, log 5: DESIGN CHOICE). A command word placed
as the pending one is due (log 15, DEDUCED: the placing stands for an accepted CMD write whose latency has passed). -/
def Obligations.StepExecutesTheDueCommand : Prop :=
  (∀ (s : State) (c : Cmd) (i : Instr), s.status.err.toNat ≤ 4 → s.delay = 0 → s.pending = some c → decode c = .ok i →
    step s = exec i s) ∧
  (∀ (s : State) (c : Cmd) (i : Instr), s.status.err.toNat ≤ 4 → decode c = .ok i →
    step (s.withPending c) = exec i (s.withPending c))

/-- A step without a due command is the host's next action, in program order, while one step of the latency passes (log 4,
log 5: the form of the interleaving is the model's choice). -/
def Obligations.StepPerformsTheNextHostAction : Prop :=
  ∀ s : State, s.status.err.toNat ≤ 4 → s.due = none →
    (s.host = [] → step s = .next { s with delay := s.delay - 1 }) ∧
    (∀ a rest, s.host = a :: rest → step s = .next (State.perform { s with delay := s.delay - 1 } a rest)) ∧
    (∀ off w rest, State.perform s (.read off w) rest = State.hostRead { s with host := rest } off w) ∧
    (∀ off w v rest, State.perform s (.write off w v) rest = State.hostWrite { s with host := rest } off w v) ∧
    (∀ rest, State.perform s .waitIdle rest = if s.status.busy then s else { s with host := rest })

/-- An idle block whose host does nothing keeps all of its state (60_exceptions.md, R218). -/
def Obligations.IdleBlockKeepsAllState : Prop :=
  ∀ s : State, s.Inv → s.pending = none → s.host = [] → step s = .next s

/-- Whatever the latency and whatever the host does meanwhile, a pending command is gone after at most `delay + 1` steps:
executed, or abandoned by a reset (70_reset_and_hazards.md, R246, R247, R231; the form of the latency is log 4). -/
def Obligations.PendingCommandCompletes : Prop :=
  ∀ (s : State) (c : Cmd), s.Inv → s.pending = some c →
    ∃ k t, k ≤ s.delay + 1 ∧ Sys2Proof.core.run k s = .next t ∧ t.pending = none ∧ t.status.busy = false

/-! ## The invariant -/

/-- Every step keeps the invariant: the shapes, BUSY exactly while a command is pending, no reserved error code, ERROP cleared
with ERR, the digit buffer and DECLEN in agreement. -/
def Obligations.StepKeepsInvariant : Prop :=
  ∀ s t : State, s.Inv → step s = .next t → t.Inv

/-- The state after reset meets the invariant, for every legal N and NREG. -/
def Obligations.ResetMeetsInvariant : Prop :=
  State.reset.Inv ∧ ∀ p : Params, p.legal = true → (State.resetOf p).Inv

/-- R41: the reset value of every piece of state. "Unspecified" is said of every draw: no register word is marked written, so
reading it gives the free value; no byte of the digit buffer is listed. -/
def Obligations.ResetValues : Prop :=
  ∀ p : Params,
    let s := State.resetOf p
    (∀ r < p.nreg, (s.reg r).length = p.n ∧ ∀ w ∈ s.reg r, w.written = false ∧
      ∀ draw site, w.read draw site = Config.uninit draw site) ∧
    s.data = 0#64 ∧ s.status.word = 0#64 ∧ s.ctrl.word = 0#64 ∧ s.declen = 0#64 ∧ s.params = p ∧
    (∀ i, Memory.get? s.digits i = none) ∧ s.pending = none

/-- R231: a reset abandons a pending command, and leaves the reset state with every register word undefined, whether or not
a command was pending. -/
def Obligations.ResetAbandonsThePendingCommand : Prop :=
  ∀ (s : State) (rest : List HostAction), s.status.err.toNat ≤ 4 → s.due = none → s.host = .reset :: rest →
    ∃ t, step s = .next t ∧ t.pending = none ∧ t.status.word = 0#64 ∧ t.data = 0#64 ∧ t.ctrl.word = 0#64 ∧
      t.declen = 0#64 ∧ t.params = s.params ∧ (∀ i, Memory.get? t.digits i = none) ∧
      (∀ r, ∀ w ∈ t.reg r, w.written = false) ∧ t.host = rest ∧ t.reads = s.reads

/-! ## Word operations (40_wordops.md) -/

/-- ZERO makes every word of `b[rd]` a written 0, and touches nothing else. -/
def Obligations.ZeroClearsTheRegister : Prop :=
  ∀ (s : State) (rd : Nat), s.Inv → rd < s.params.nreg →
    ∃ t, exec (.zero rd) s = .next t ∧ Completed s t ∧ sameError s t ∧ sameFlags s t ∧
      t.defined rd ∧ t.regWords rd = List.replicate s.params.n 0#64 ∧
      sameRegsBut rd s t ∧ t.data = s.data ∧ sameDigits s t

/-- SETW writes DATA to one word of `b[rd]`, and touches neither the other words, with their definedness, nor anything else. -/
def Obligations.SetwWritesOneWord : Prop :=
  ∀ (s : State) (rd pos : Nat), s.Inv → rd < s.params.nreg → pos < s.params.n →
    ∃ t, exec (.setw rd pos) s = .next t ∧ Completed s t ∧ sameError s t ∧ sameFlags s t ∧
      (t.reg rd)[pos]? = some (RegWord.ofWord s.data) ∧ (∀ q, q ≠ pos → (t.reg rd)[q]? = (s.reg rd)[q]?) ∧
      sameRegsBut rd s t ∧ t.data = s.data ∧ sameDigits s t

/-- GETW moves one word of `b[rs1]` to DATA: the word a command wrote, or a free value where none has; nothing else changes.
The free value, in the place of the fault `UninitRead` that R22 and R103 name first, and its form are the model's choice
(log 1, log 2: DESIGN CHOICE). -/
def Obligations.GetwReadsOneWord : Prop :=
  ∀ (s : State) (rs1 pos : Nat), s.Inv → rs1 < s.params.nreg → pos < s.params.n →
    ∃ t, exec (.getw rs1 pos) s = .next t ∧ Completed s t ∧ sameError s t ∧ sameFlags s t ∧
      (∀ w, (s.reg rs1)[pos]? = some w → w.written = true → t.data = w.value) ∧
      (∀ w, (s.reg rs1)[pos]? = some w → w.written = false → t.data = Config.uninit s.draws (.rs1 pos)) ∧
      sameRegs s t ∧ sameDigits s t

/-- LEN gives the exact significant word count in DATA: 0 exactly for the value 0, N exactly when the top word is nonzero,
else the number of words that hold the value's highest set bit; nothing else changes. -/
def Obligations.LenCountsSignificantWords : Prop :=
  ∀ (s : State) (rs1 : Nat), s.Inv → rs1 < s.params.nreg →
    ∃ t, exec (.len rs1) s = .next t ∧ Completed s t ∧ sameError s t ∧ sameFlags s t ∧
      (t.data = 0#64 ↔ s.val1 rs1 = 0) ∧
      (s.val1 rs1 ≠ 0 → 2 ^ (64 * (t.data.toNat - 1)) ≤ s.val1 rs1) ∧
      s.val1 rs1 < 2 ^ (64 * t.data.toNat) ∧ t.data.toNat ≤ s.params.n ∧
      (t.data.toNat = s.params.n ↔ (s.src1 rs1).getLastD 0#64 ≠ 0#64) ∧
      sameRegs s t ∧ sameDigits s t

/-- R106: the value and W of SHL, for every shift amount 0 to 63 and every aliasing of the registers. -/
def Obligations.ShlClosedForm : Prop :=
  ∀ (s : State) (rd rs1 n : Nat), s.Inv → rd < s.params.nreg → rs1 < s.params.nreg → n ≤ 63 →
    (s.ctrl.ofe = false ∨ s.val1 rs1 * 2 ^ n < 2 ^ s.params.bits) →
    ∃ t, exec (.shl rd rs1 n) s = .next t ∧
      WroteResult rd (s.val1 rs1 * 2 ^ n % 2 ^ s.params.bits) (2 ^ s.params.bits ≤ s.val1 rs1 * 2 ^ n) s t ∧
      (t.status.w = true ↔ s.val1 rs1 / 2 ^ (s.params.bits - n) ≠ 0)

/-- R111: the value of SHR, for every shift amount 0 to 63; losing low bits is no wrap. -/
def Obligations.ShrClosedForm : Prop :=
  ∀ (s : State) (rd rs1 n : Nat), s.Inv → rd < s.params.nreg → rs1 < s.params.nreg → n ≤ 63 →
    ∃ t, exec (.shr rd rs1 n) s = .next t ∧ WroteResult rd (s.val1 rs1 / 2 ^ n) False s t

/-- A left shift that loses no bit is undone by the right shift of the same amount, with OFE set or not (40_wordops.md, R112). -/
def Obligations.ShiftRoundTrip : Prop :=
  ∀ (s : State) (rd rs1 n : Nat), s.Inv → rd < s.params.nreg → rs1 < s.params.nreg → n ≤ 63 →
    s.val1 rs1 / 2 ^ (s.params.bits - n) = 0 →
    ∃ t u, exec (.shl rd rs1 n) s = .next t ∧ exec (.shr rd rd n) t = .next u ∧ val (u.regWords rd) = s.val1 rs1

/-- Shifts composed of legal amounts, in any sequence, shift by the sum of the amounts, and a nonzero bit is lost in some
step exactly if the whole shift loses one; the amounts the rule names are legal and add up (70_reset_and_hazards.md, R244). -/
def Obligations.ComposedShiftsShiftByTheSum : Prop :=
  (∀ (ns : List Nat) (ws : List Word), (∀ n ∈ ns, n ≤ 63) →
    val (shlSteps ns ws).1 = val ws * 2 ^ ns.sum % 2 ^ (64 * ws.length) ∧
    ((shlSteps ns ws).2 = true ↔ 2 ^ (64 * ws.length) ≤ val ws * 2 ^ ns.sum) ∧
    val (shrSteps ns ws) = val ws / 2 ^ ns.sum) ∧
  (∀ k : Nat, (∀ n ∈ shiftAmounts k, n ≤ 63) ∧ (shiftAmounts k).sum = k)

/-! ## Arithmetic (41_arithmetic.md) -/

/-- R131: the value and W of ADD, and the carry between words, also as the two-step overflow detection makes it. -/
def Obligations.AddClosedFormAndCarries : Prop :=
  (∀ (s : State) (rd rs1 rs2 : Nat), s.Inv → rd < s.params.nreg → rs1 < s.params.nreg → rs2 < s.params.nreg →
    (s.ctrl.ofe = false ∨ s.val1 rs1 + s.val2 rs2 < 2 ^ s.params.bits) →
    ∃ t, exec (.add rd rs1 rs2) s = .next t ∧
      WroteResult rd ((s.val1 rs1 + s.val2 rs2) % 2 ^ s.params.bits)
        (2 ^ s.params.bits ≤ s.val1 rs1 + s.val2 rs2) s t) ∧
  (∀ (c : Nat) (a b : Word) (as bs : List Word), c ≤ 1 →
    ∃ c', (addChain c (a :: as) (b :: bs)).1 = BitVec.ofNat 64 (a.toNat + b.toNat + c) :: (addChain c' as bs).1 ∧
      (addChain c (a :: as) (b :: bs)).2 = (addChain c' as bs).2 ∧ c' ≤ 1 ∧
      (c' = 1 ↔ 2 ^ 64 ≤ a.toNat + b.toNat + c) ∧
      (let t := (a.toNat + b.toNat) % 2 ^ 64
       (c' = 1 ↔ (2 ^ 64 ≤ a.toNat + b.toNat ∨ 2 ^ 64 ≤ t + c)) ∧
       ¬ (2 ^ 64 ≤ a.toNat + b.toNat ∧ 2 ^ 64 ≤ t + c)))

/-- R136: the value and W of SUB, exact for `A ≥ B`, wrapped for `A < B`. -/
def Obligations.SubClosedForm : Prop :=
  ∀ (s : State) (rd rs1 rs2 : Nat), s.Inv → rd < s.params.nreg → rs1 < s.params.nreg → rs2 < s.params.nreg →
    (s.ctrl.ufe = false ∨ s.val2 rs2 ≤ s.val1 rs1) →
    ∃ t, exec (.sub rd rs1 rs2) s = .next t ∧
      WroteResult rd ((2 ^ s.params.bits + s.val1 rs1 - s.val2 rs2) % 2 ^ s.params.bits)
        (s.val1 rs1 < s.val2 rs2) s t ∧
      (s.val2 rs2 ≤ s.val1 rs1 → val (t.regWords rd) = s.val1 rs1 - s.val2 rs2) ∧
      (s.val1 rs1 < s.val2 rs2 → val (t.regWords rd) = 2 ^ s.params.bits + s.val1 rs1 - s.val2 rs2)

/-- The value of MUL is the product modulo `2^M`, and W says whether the exact product fits (41_arithmetic.md, R140, R143). -/
def Obligations.MulClosedForm : Prop :=
  ∀ (s : State) (rd rs1 rs2 : Nat), s.Inv → rd < s.params.nreg → rs1 < s.params.nreg → rs2 < s.params.nreg →
    (s.ctrl.ofe = false ∨ s.val1 rs1 * s.val2 rs2 < 2 ^ s.params.bits) →
    ∃ t, exec (.mul rd rs1 rs2) s = .next t ∧
      WroteResult rd (s.val1 rs1 * s.val2 rs2 % 2 ^ s.params.bits)
        (2 ^ s.params.bits ≤ s.val1 rs1 * s.val2 rs2) s t

/-- The naive shift-and-add loop over the block's own adder and shifter, and the zero-skipping loop with its shifts of at most
63 bits, both give the words of MUL (41_arithmetic.md, R141, R142). -/
def Obligations.MultiplierFormsComputeTheProduct : Prop :=
  ∀ a b : List Word, a.length = b.length →
    mulNaive a b = (mulWords a.length a b).1 ∧ mulSkip a b = (mulWords a.length a b).1

/-- R144: MUL by 0 and by 1, squaring in place, commutativity of result and flags (of the product of any words, and of the
command for registers whose words are defined, since an undefined word is a new free value at each read), and no UNDERFLOW. -/
def Obligations.MulCornerCases : Prop :=
  (∀ (s : State) (rd r q : Nat), s.Inv → rd < s.params.nreg → r < s.params.nreg → q < s.params.nreg →
    ((s.val1 r = 0 ∨ s.val2 q = 0) → ∃ t, exec (.mul rd r q) s = .next t ∧ WroteResult rd 0 False s t) ∧
    (s.val2 q = 1 → ∃ t, exec (.mul rd r q) s = .next t ∧ WroteResult rd (s.val1 r) False s t) ∧
    (s.defined r → s.defined q → exec (.mul rd r q) s = exec (.mul rd q r) s) ∧
    (s.defined r → (s.ctrl.ofe = false ∨ s.val1 r ^ 2 < 2 ^ s.params.bits) →
      ∃ t, exec (.mul r r r) s = .next t ∧
        WroteResult r (s.val1 r ^ 2 % 2 ^ s.params.bits) (2 ^ s.params.bits ≤ s.val1 r ^ 2) s t)) ∧
  (∀ (n : Nat) (a b : List Word), mulWords n a b = mulWords n b a) ∧
  (∀ (s t : State) (rd r q : Nat), exec (.mul rd r q) s = .next t →
    t.status.err = Error.underflow.code → s.status.err = Error.underflow.code)

/-- With OFE = UFE = 0, subtracting what was added gives back the first summand, whether or not the sum wrapped
(41_arithmetic.md, R137; 90_conflicts.md C6). The second summand is read twice, so it is defined and not overwritten. -/
def Obligations.SubUndoesAdd : Prop :=
  ∀ (s : State) (rd ra rb : Nat), s.Inv → rd < s.params.nreg → ra < s.params.nreg → rb < s.params.nreg →
    rd ≠ rb → s.defined rb → s.ctrl.ofe = false → s.ctrl.ufe = false →
    ∃ t u, exec (.add rd ra rb) s = .next t ∧ exec (.sub rd rd rb) t = .next u ∧ val (u.regWords rd) = s.val1 ra

/-! ## Decimal conversion (42_decimal.md) -/

/-- DEC writes to the whole buffer, in ASCII, decimal digits that stand for the value of `b[rs1]`, and to DECLEN the number of
digits from the first significant one; flags, registers and DATA are left alone (42_decimal.md, R160 to R162, R164). -/
def Obligations.DecWritesTheDecimalDigits : Prop :=
  ∀ (s : State) (rs1 : Nat), s.Inv → rs1 < s.params.nreg →
    ∃ t ds, exec (.dec rs1) s = .next t ∧ Completed s t ∧ sameError s t ∧ sameFlags s t ∧
      ds.length = s.params.dlen ∧ AllDigits ds ∧ digitsVal ds = s.val1 rs1 ∧
      (∀ i < s.params.dlen, Memory.get? t.digits i = some (asciiDigit (ds.getD i 0))) ∧
      (∀ i, s.params.dlen ≤ i → Memory.get? t.digits i = Memory.get? s.digits i) ∧
      t.declen.toNat = s.params.dlen - firstDigit ds ∧
      sameRegs s t ∧ t.data = s.data

/-- R161: `first(d)` is the least index with a nonzero digit, or the last; DECLEN is in 1..DLEN-1; the digits are read through
the digit window; before the trimmed string the buffer keeps '0', and the string does not begin with '0' unless it is one
digit long. -/
def Obligations.DeclenTrimsLeadingZeros : Prop :=
  (∀ ds : List Nat, ds ≠ [] →
    (∀ k < firstDigit ds, ds.getD k 0 = 0) ∧
    ((∃ d ∈ ds, d ≠ 0) → ds.getD (firstDigit ds) 0 ≠ 0) ∧
    ((∀ d ∈ ds, d = 0) → firstDigit ds = ds.length - 1)) ∧
  (∀ (s : State) (rs1 : Nat), s.Inv → rs1 < s.params.nreg →
    ∃ t ds, exec (.dec rs1) s = .next t ∧ t.digits = Memory.ofBytes 0 (ds.map asciiDigit) ∧
      ds.length = s.params.dlen ∧ AllDigits ds ∧ t.declen.toNat = s.params.dlen - firstDigit ds ∧
      (∀ k < s.params.dlen, t.replyTo (offDigit k) .b8 = (asciiDigit (ds.getD k 0)).setWidth 64) ∧
      1 ≤ t.declen.toNat ∧ t.declen.toNat ≤ s.params.dlen - 1 ∧
      (∀ k < s.params.dlen - t.declen.toNat, t.digitByte k = 0x30#8) ∧
      (1 < t.declen.toNat → t.digitByte (s.params.dlen - t.declen.toNat) ≠ 0x30#8))

/-- R163: with the digits of `floor(A / 2^(j+1))`, doubling leaves an even last digit of at most 8, a carry out of 0 and a
first digit of 0, and adding the bit makes the digits of `floor(A / 2^j)` with no digit above 9 and a first digit of 0. -/
def Obligations.NoDigitOverflowsInDec : Prop :=
  ∀ (p : Params) (a j : Nat) (ds : List Nat), a < 2 ^ p.bits → ds.length = p.dlen → AllDigits ds →
    digitsVal ds = a / 2 ^ (j + 1) →
    lastDigit (doubleDigits ds).1 % 2 = 0 ∧ lastDigit (doubleDigits ds).1 ≤ 8 ∧
    (doubleDigits ds).2 = 0 ∧ (doubleDigits ds).1.headD 0 = 0 ∧
    AllDigits (addToLast (natBit a j) (doubleDigits ds).1) ∧
    digitsVal (addToLast (natBit a j) (doubleDigits ds).1) = a / 2 ^ j ∧
    (addToLast (natBit a j) (doubleDigits ds).1).headD 0 = 0

/-- The classic add-3 circuit maps decimal digits and a bit to what steps (1) and (2) of DEC map them to, the carry out
included (42_decimal.md, R166; its classic form is the spec's GK1). -/
def Obligations.AddThreeCircuitAgrees : Prop :=
  ∀ (b : Nat) (ds : List Nat), b ≤ 1 → ds ≠ [] → AllDigits ds →
    dabbleStep b ds = (addToLast b (doubleDigits ds).1, (doubleDigits ds).2)

/-- DEC of 0 gives DECLEN = 1 and '0' in every byte; DEC of the greatest value gives DECLEN = DLEN - 1 and D[0] = '0'; what
the buffer held before does not matter (42_decimal.md, R164). -/
def Obligations.DecCornerCases : Prop :=
  ∀ (s : State) (rs1 : Nat), s.Inv → rs1 < s.params.nreg →
    (s.val1 rs1 = 0 → ∃ t, exec (.dec rs1) s = .next t ∧ t.declen = 1#64 ∧
      ∀ i < s.params.dlen, t.digitByte i = 0x30#8) ∧
    (s.val1 rs1 = 2 ^ s.params.bits - 1 → ∃ t, exec (.dec rs1) s = .next t ∧
      t.declen.toNat = s.params.dlen - 1 ∧ t.digitByte 0 = 0x30#8) ∧
    (∀ (m : Memory) (l : Word), ∃ t u, exec (.dec rs1) s = .next t ∧
      exec (.dec rs1) { s with digits := m, declen := l } = .next u ∧ t.digits = u.digits ∧ t.declen = u.declen)

/-! ## Errors (60_exceptions.md) -/

/-- R201: INDEX is raised exactly if a used register field or the immediate is out of range; nothing is masked. -/
def Obligations.IndexIsRaisedExactlyOutOfRange : Prop :=
  ∀ (i : Instr) (s : State),
    (indexCondition s.params i → ∃ t, exec i s = .next t ∧ Raised .index i.op.code s t) ∧
    (¬ indexCondition s.params i → ∀ t, exec i s = .next t →
      t.status.err = Error.index.code → s.status.err = Error.index.code)

/-- R202: SUB with `A < B` raises UNDERFLOW while UFE = 1, and writes the wrapped difference with W = 1 while UFE = 0. -/
def Obligations.UnderflowFollowsUfe : Prop :=
  ∀ (s : State) (rd rs1 rs2 : Nat), s.Inv → rd < s.params.nreg → rs1 < s.params.nreg → rs2 < s.params.nreg →
    s.val1 rs1 < s.val2 rs2 →
    (s.ctrl.ufe = true → ∃ t, exec (.sub rd rs1 rs2) s = .next t ∧ Raised .underflow Op.sub.code s t) ∧
    (s.ctrl.ufe = false → ∃ t, exec (.sub rd rs1 rs2) s = .next t ∧
      WroteResult rd (2 ^ s.params.bits + s.val1 rs1 - s.val2 rs2) True s t)

/-- R203: the three causes of OVERFLOW while OFE = 1, the wrapped results with W = 1 while OFE = 0, and the commands that
never raise it. -/
def Obligations.OverflowFollowsOfe : Prop :=
  (∀ (s : State) (rd rs1 rs2 : Nat), s.Inv → rd < s.params.nreg → rs1 < s.params.nreg → rs2 < s.params.nreg →
    2 ^ s.params.bits ≤ s.val1 rs1 + s.val2 rs2 →
    (s.ctrl.ofe = true → ∃ t, exec (.add rd rs1 rs2) s = .next t ∧ Raised .overflow Op.add.code s t) ∧
    (s.ctrl.ofe = false → ∃ t, exec (.add rd rs1 rs2) s = .next t ∧
      WroteResult rd ((s.val1 rs1 + s.val2 rs2) % 2 ^ s.params.bits) True s t)) ∧
  (∀ (s : State) (rd rs1 n : Nat), s.Inv → rd < s.params.nreg → rs1 < s.params.nreg → n ≤ 63 →
    2 ^ s.params.bits ≤ s.val1 rs1 * 2 ^ n →
    (s.ctrl.ofe = true → ∃ t, exec (.shl rd rs1 n) s = .next t ∧ Raised .overflow Op.shl.code s t) ∧
    (s.ctrl.ofe = false → ∃ t, exec (.shl rd rs1 n) s = .next t ∧
      WroteResult rd (s.val1 rs1 * 2 ^ n % 2 ^ s.params.bits) True s t)) ∧
  (∀ (s : State) (rd rs1 rs2 : Nat), s.Inv → rd < s.params.nreg → rs1 < s.params.nreg → rs2 < s.params.nreg →
    2 ^ s.params.bits ≤ s.val1 rs1 * s.val2 rs2 →
    (s.ctrl.ofe = true → ∃ t, exec (.mul rd rs1 rs2) s = .next t ∧ Raised .overflow Op.mul.code s t) ∧
    (s.ctrl.ofe = false → ∃ t, exec (.mul rd rs1 rs2) s = .next t ∧
      WroteResult rd (s.val1 rs1 * s.val2 rs2 % 2 ^ s.params.bits) True s t)) ∧
  (∀ (i : Instr) (s t : State), i.op ∈ [Op.shr, .sub, .dec, .zero, .setw, .getw, .len] → exec i s = .next t →
    t.status.err = Error.overflow.code → s.status.err = Error.overflow.code)

/-- R207: one command reports one error, the first in the order ILLEGAL, INDEX of a register field or of the immediate (one
code), OVERFLOW or UNDERFLOW; of the last two only SUB raises UNDERFLOW, and it raises no OVERFLOW. -/
def Obligations.ErrorPriority : Prop :=
  ∀ (s : State) (c : Cmd), s.status.err.toNat ≤ 4 → s.due = some c →
    (∀ e, decode c = .error e → ∃ t, step s = .next t ∧ Raised .illegal (opField c) s t) ∧
    (∀ i, decode c = .ok i → indexCondition s.params i → ∃ t, step s = .next t ∧ Raised .index (opField c) s t) ∧
    (∀ i, decode c = .ok i → ¬ indexCondition s.params i → ∃ t, step s = .next t ∧
      (sameError s t ∨
       (Raised .overflow (opField c) s t ∧ i.op ∈ [Op.add, .shl, .mul]) ∨
       (Raised .underflow (opField c) s t ∧ i.op = .sub)))

/-- R205: a command ends either with no error recorded, or with ERR and ERROP recorded and nothing else of the state changed
beside the completion; either way BUSY is 0 and nothing is pending. -/
def Obligations.ErrorsArePrecise : Prop :=
  ∀ (s t : State) (c : Cmd), s.due = some c → step s = .next t →
    t.status.busy = false ∧ t.pending = none ∧
    (sameError s t ∨ ∃ e, Raised e (opField c) s t)

/-- R206: while ERR is not 0 every CMD write is dropped and sets OVR; DATA and CTRL stay writable and STATUS readable. -/
def Obligations.CommandsAreDroppedWhileErr : Prop :=
  ∀ (s : State) (v : Word), s.Inv → s.status.err ≠ 0#4 →
    s.hostWrite offCmd .b64 v = { s with status := { s.status with ovr := true } } ∧
    s.hostWrite offData .b64 v = { s with data := v } ∧
    s.hostWrite offCtrl .b64 v = { s with ctrl := ⟨v.getLsbD 0, v.getLsbD 1⟩ } ∧
    s.replyTo offStatus .b64 = s.status.word

/-- R208 and R31: ERRCLR sets ERR and ERROP to 0 and changes nothing but the bits the same write clears, after which a CMD write is
accepted; bit 15 reads as 0 and has no effect on ERR and ERROP while BUSY; and while ERR is not 0 no command runs, so no
second error is raised, and a dropped command is recorded only in OVR. -/
def Obligations.ErrclrReturnsFromTheError : Prop :=
  (∀ (s : State) (v w : Word), s.Inv → s.status.err ≠ 0#4 → v.getLsbD 15 = true →
    (s.hostWrite offStatus .b64 v).status.err = 0#4 ∧ (s.hostWrite offStatus .b64 v).status.errop = 0#8 ∧
    s.hostWrite offStatus .b64 v = { s with status := { s.status with
      err := 0#4, errop := 0#8, ovr := s.status.ovr && !v.getLsbD 3, acc := s.status.acc && !v.getLsbD 4 } } ∧
    ((s.hostWrite offStatus .b64 v).hostWrite offCmd .b64 w).pending = some (w.setWidth 32) ∧
    ((s.hostWrite offStatus .b64 v).hostWrite offCmd .b64 w).status.busy = true) ∧
  (∀ (s : State) (v : Word), v.getLsbD 15 = true →
    (s.hostWrite offStatus .b64 v).status.err = 0#4 ∧ (s.hostWrite offStatus .b64 v).status.errop = 0#8) ∧
  (∀ s : State, (s.replyTo offStatus .b64).getLsbD 15 = false) ∧
  (∀ (s : State) (v : Word), s.Inv → s.status.busy = true → sameError s (s.hostWrite offStatus .b64 v)) ∧
  (∀ (s : State) (v : Word), s.Inv → s.status.err ≠ 0#4 → s.due = none ∧
    s.hostWrite offCmd .b64 v = { s with status := { s.status with ovr := true } })

/-- While ERR holds an error, no step replaces it by another one: it stays until a STATUS write with bit 15 or a reset clears
it (10_state.md, R30, R31). -/
def Obligations.ErrHoldsTheFirstError : Prop :=
  ∀ s t : State, s.Inv → s.status.err ≠ 0#4 → step s = .next t →
    sameError s t ∨
    (t.status.err = 0#4 ∧ t.status.errop = 0#8 ∧
      (s.acting = some .reset ∨ ∃ v, s.acting = some (.write offStatus .b64 v) ∧ v.getLsbD 15 = true))

/-! ## Whole-machine rules (10_state.md) -/

/-- Z and W change only by a successful SHL, SHR, ADD, SUB or MUL, which sets Z by its result, or by a reset (10_state.md, R26,
R27). -/
def Obligations.FlagsChangeOnlyWithAResult : Prop :=
  ∀ s t : State, s.Inv → step s = .next t →
    sameFlags s t ∨ s.acting = some .reset ∨
    ∃ i rd, s.running = some i ∧ resultDest i = some rd ∧ sameError s t ∧
      (t.status.z = true ↔ val (t.regWords rd) = 0)

/-- A register changes only by a command that names it as its destination, or by a reset: no host access, no error and no other
command touches it (10_state.md, R21, R42). -/
def Obligations.RegistersChangeOnlyAsDestination : Prop :=
  ∀ s t : State, step s = .next t → ∀ r,
    t.reg r = s.reg r ∨ s.acting = some .reset ∨ ∃ i, s.running = some i ∧ destReg i = some r ∧ sameError s t

/-- A register word that has been written stays written until a reset (10_state.md, R22). -/
def Obligations.WrittenWordsStayWritten : Prop :=
  ∀ s t : State, s.Inv → step s = .next t → s.acting ≠ some .reset →
    ∀ (r i : Nat) (w : RegWord), (s.reg r)[i]? = some w → w.written = true → ∃ w' : RegWord, (t.reg r)[i]? = some w' ∧ w'.written = true

/-- DATA changes only by an accepted DATA write, by GETW or LEN, or by a reset (10_state.md, R23, R42; 20_memory.md, R56). -/
def Obligations.DataChangesOnlyByItsWriters : Prop :=
  ∀ s t : State, step s = .next t →
    t.data = s.data ∨ s.acting = some .reset ∨
    (∃ v, s.acting = some (.write offData .b64 v) ∧ s.status.busy = false ∧ t.data = v) ∨
    (∃ r, s.running = some (.len r)) ∨ (∃ r pos, s.running = some (.getw r pos))

/-- R25: BUSY is set by the acceptance of a command, cleared by its completion with or without an error, and never 1 without
a pending command. -/
def Obligations.BusyFollowsThePendingCommand : Prop :=
  (∀ (s : State) (v : Word), s.status.busy = false → s.status.err = 0#4 →
    (s.hostWrite offCmd .b64 v).status.busy = true ∧ (s.hostWrite offCmd .b64 v).pending = some (v.setWidth 32)) ∧
  (∀ (s t : State) (c : Cmd), s.due = some c → step s = .next t → t.status.busy = false ∧ t.pending = none) ∧
  (∀ s : State, s.Inv → s.status.busy = true → ∃ c, s.pending = some c)

/-- OVR is set by a dropped CMD, DATA or CTRL write, which does nothing else; no other step sets it, and only a STATUS write
with bit 3 or a reset clears it; it is 0 after reset (10_state.md, R28). That an unsupported write at one of these offsets sets
ACC and not OVR, also while BUSY, is the model's choice (log 20, DESIGN CHOICE). -/
def Obligations.OvrRecordsDroppedWrites : Prop :=
  (∀ (s : State) (off : Offset) (v : Word),
    ((off = offCmd ∨ off = offData ∨ off = offCtrl) ∧ s.status.busy = true) ∨ (off = offCmd ∧ s.status.err ≠ 0#4) →
    s.hostWrite off .b64 v = { s with status := { s.status with ovr := true } }) ∧
  (∀ s t : State, step s = .next t → s.status.ovr = false → t.status.ovr = true →
    ∃ off v, s.acting = some (.write off .b64 v) ∧
      (((off = offCmd ∨ off = offData ∨ off = offCtrl) ∧ s.status.busy = true) ∨ (off = offCmd ∧ s.status.err ≠ 0#4))) ∧
  (∀ s t : State, step s = .next t → s.status.ovr = true → t.status.ovr = false →
    s.acting = some .reset ∨ ∃ v, s.acting = some (.write offStatus .b64 v) ∧ v.getLsbD 3 = true) ∧
  State.reset.status.ovr = false

/-- The layout of STATUS, field by field, and what a write to it does: only bits 3, 4 and 15 respond, and it is accepted while
BUSY too (10_state.md, R24). -/
def Obligations.StatusLayoutAndWrites : Prop :=
  (∀ st : Status,
    st.word.getLsbD 0 = st.busy ∧ st.word.getLsbD 1 = st.z ∧ st.word.getLsbD 2 = st.w ∧ st.word.getLsbD 3 = st.ovr ∧
    st.word.getLsbD 4 = st.acc ∧ (st.word.extractLsb' 5 3) = 0#3 ∧ st.word.extractLsb' 8 4 = st.err ∧
    st.word.extractLsb' 12 4 = 0#4 ∧ st.word.extractLsb' 16 8 = st.errop ∧ st.word.extractLsb' 24 40 = 0#40) ∧
  (∀ s : State, s.replyTo offStatus .b64 = s.status.word) ∧
  (∀ (s : State) (v : Word), s.hostWrite offStatus .b64 v = { s with status := { s.status with
    ovr := s.status.ovr && !v.getLsbD 3
    acc := s.status.acc && !v.getLsbD 4
    err := if v.getLsbD 15 then 0#4 else s.status.err
    errop := if v.getLsbD 15 then 0#8 else s.status.errop } })

/-- R34: DECLEN ignores host writes, which set nothing; it is 0 exactly if no DEC has completed since reset, and else the
number of significant digits that the last DEC left in the buffer, in 1..DLEN-1. -/
def Obligations.DeclenRegister : Prop :=
  (∀ (s : State) (v : Word), s.hostWrite offDeclen .b64 v = s) ∧
  State.reset.declen = 0#64 ∧
  (∀ s : State, s.Inv → (s.declen = 0#64 ↔ s.digits = []) ∧
    (s.digits ≠ [] → s.declen.toNat = s.params.dlen - firstDigit (digitValues s.digits) ∧
      1 ≤ s.declen.toNat ∧ s.declen.toNat ≤ s.params.dlen - 1)) ∧
  (∀ (s : State), s.status.busy = false → s.replyTo offDeclen .b64 = s.declen)

/-- R35: the fields of PARAM, which host writes do not touch and no step changes. -/
def Obligations.ParamReportsTheParameters : Prop :=
  (∀ s : State, s.Inv →
    ((s.replyTo offParam .b64).extractLsb' 0 16).toNat = s.params.n ∧
    ((s.replyTo offParam .b64).extractLsb' 16 8).toNat = s.params.nreg ∧
    ((s.replyTo offParam .b64).extractLsb' 24 8).toNat = 64 ∧
    ((s.replyTo offParam .b64).extractLsb' 32 16).toNat = s.params.dlen ∧
    ((s.replyTo offParam .b64).extractLsb' 48 16).toNat = 0) ∧
  (∀ (s : State) (v : Word), s.hostWrite offParam .b64 v = s) ∧
  (∀ s t : State, step s = .next t → t.replyTo offParam .b64 = s.replyTo offParam .b64)

/-! ## The host window (20_memory.md) -/

/-- R55 and R37: the three cases of a CMD write, of which only the low 32 bits count, and that BUSY reads 1 right after
acceptance; CMD reads 0 whatever is pending. The latency and the draw count, which
acceptance also sets, are the model's own. -/
def Obligations.CmdWriteAcceptance : Prop :=
  ∀ (s : State) (v : Word),
    (s.status.busy = true → s.hostWrite offCmd .b64 v = { s with status := { s.status with ovr := true } }) ∧
    (s.status.busy = false → s.status.err ≠ 0#4 →
      s.hostWrite offCmd .b64 v = { s with status := { s.status with ovr := true } }) ∧
    (s.status.busy = false → s.status.err = 0#4 → ∃ delay draws,
      s.hostWrite offCmd .b64 v = { s with
        pending := some (v.setWidth 32)
        status := { s.status with busy := true }
        delay := delay
        draws := draws } ∧
      ((s.hostWrite offCmd .b64 v).replyTo offStatus .b64).getLsbD 0 = true) ∧
    (∀ w : Word, v.setWidth 32 = w.setWidth 32 → s.hostWrite offCmd .b64 v = s.hostWrite offCmd .b64 w) ∧
    s.replyTo offCmd .b64 = 0#64

/-- R56: DATA and CTRL writes are dropped with OVR while BUSY, else they write, with ERR nonzero too; of CTRL only bits 1:0. -/
def Obligations.DataAndCtrlWrites : Prop :=
  ∀ (s : State) (v : Word),
    (s.status.busy = true →
      s.hostWrite offData .b64 v = { s with status := { s.status with ovr := true } } ∧
      s.hostWrite offCtrl .b64 v = { s with status := { s.status with ovr := true } }) ∧
    (s.status.busy = false →
      s.hostWrite offData .b64 v = { s with data := v } ∧
      (s.hostWrite offData .b64 v).replyTo offData .b64 = v ∧
      s.hostWrite offCtrl .b64 v = { s with ctrl := ⟨v.getLsbD 0, v.getLsbD 1⟩ } ∧
      (s.hostWrite offCtrl .b64 v).replyTo offCtrl .b64 = v &&& 3#64)

/-- R57: a host read changes nothing but ACC, if it is not supported, and the model's own record of replies and draws; it is
idempotent while no command is pending (the digit window once a DEC has written it); and a supported write changes the block
only if it is a CMD, DATA or CTRL write or a STATUS write with bit 3, 4 or 15. -/
def Obligations.ReadsHaveNoSideEffects : Prop :=
  (∀ (s : State) (off : Offset) (width : Width),
    s.hostRead off width = { s with
      status := { s.status with acc := s.status.acc || !readSupported off width }
      reads := s.replyTo off width :: s.reads
      draws := s.draws + 1 }) ∧
  (∀ (s : State) (off : Offset) (width : Width), s.Inv → s.pending = none → (off.toNat < 0x10000 ∨ s.DigitsWritten) →
    (s.hostRead off width).replyTo off width = s.replyTo off width) ∧
  (∀ (s : State) (off : Offset) (width : Width) (v : Word), writeSupported off width = true →
    s.hostWrite off width v ≠ s →
    off = offCmd ∨ off = offData ∨ off = offCtrl ∨
      (off = offStatus ∧ (v.getLsbD 3 = true ∨ v.getLsbD 4 = true ∨ v.getLsbD 15 = true)))

/-- While BUSY = 1, STATUS, CTRL and PARAM read their current values, and DATA, DECLEN and the digit window reply with the free
value of this read (20_memory.md, R58; log 10). When the command completes, the reads give what it wrote. -/
def Obligations.ReadsWhileBusy : Prop :=
  ∀ s : State, s.status.busy = true →
    s.replyTo offStatus .b64 = s.status.word ∧ s.replyTo offCtrl .b64 = s.ctrl.word ∧
    s.replyTo offParam .b64 = Params.word s.params ∧
    s.replyTo offData .b64 = Config.uninit s.draws .bus ∧ s.replyTo offDeclen .b64 = Config.uninit s.draws .bus ∧
    (∀ i, i < 0x10000 → s.replyTo (offDigit i) .b8 = Config.uninit s.draws .bus &&& 0xFF#64) ∧
    (∀ i, i < 0x10000 → i % 8 = 0 → s.replyTo (offDigit i) .b64 = Config.uninit s.draws .bus) ∧
    s.complete.replyTo offData .b64 = s.data ∧ s.complete.replyTo offDeclen .b64 = s.declen

/-- R52, first three points: the byte at `0x10000 + i` is `D[i]` below DLEN and `0x00`, with no access error, from there on;
the window takes no write. -/
def Obligations.DigitWindowBytes : Prop :=
  ∀ (s : State) (i : Nat), i < 0x10000 →
    (∀ b, s.status.busy = false → i < s.params.dlen → Memory.get? s.digits i = some b →
      s.replyTo (offDigit i) .b8 = b.setWidth 64) ∧
    (s.status.busy = false → s.params.dlen ≤ i → s.replyTo (offDigit i) .b8 = 0#64) ∧
    (s.hostRead (offDigit i) .b8).status = s.status ∧
    (∀ width v, s.hostWrite (offDigit i) width v = { s with status := { s.status with acc := true } })

/-- An 8-bit read and a 64-bit read that cover a byte give it the same value, in the little-endian place of R61, and no other
width is supported anywhere (20_memory.md, R62). Of a buffer that no DEC has written this holds because both replies are taken
in one state, with one draw at one place: that is the form of the free value, the model's choice (log 2, log 3: DESIGN CHOICE),
and the spec bases no claim on such bytes (R38). -/
def Obligations.MixedWidthReadsAgree : Prop :=
  (∀ (s : State) (k j : Nat), s.status.busy = false → j < 8 → 8 * k + j < 0x10000 →
    (s.replyTo (offDigit (8 * k)) .b64).extractLsb' (8 * j) 8 = (s.replyTo (offDigit (8 * k + j)) .b8).setWidth 8) ∧
  (∀ off : Offset, readSupported off .b16 = false ∧ readSupported off .b32 = false)

/-- Below offset 0x30 only an aligned 64-bit access is supported; any other reads 0, or is ignored, and sets ACC; writes to
DECLEN and PARAM are supported and change nothing (20_memory.md, R53). That an unsupported write leaves OVR alone also while a
supported one would be dropped is the model's choice (log 20, DESIGN CHOICE), and so is that an unsupported read of DATA or
DECLEN replies 0 also while BUSY (log 21, DESIGN CHOICE). -/
def Obligations.RegisterOffsetsTakeAlignedWords : Prop :=
  (∀ (s : State) (off : Offset) (width : Width) (v : Word), off.toNat < 0x30 →
    ¬ (width = .b64 ∧ off.toNat % 8 = 0) →
    s.replyTo off width = 0#64 ∧ (s.hostRead off width).status = { s.status with acc := true } ∧
    s.hostWrite off width v = { s with status := { s.status with acc := true } }) ∧
  (∀ (s : State) (off : Offset), off.toNat < 0x30 → off.toNat % 8 = 0 →
    (s.hostRead off .b64).status = s.status ∧ writeSupported off .b64 = true) ∧
  (∀ (s : State) (v : Word), s.hostWrite offDeclen .b64 v = s ∧ s.hostWrite offParam .b64 v = s)

/-- The supported reads of the digit window, and that any other, and any access at an unmapped offset, reads 0, is ignored as a
write, and sets ACC (20_memory.md, R54). That an unsupported read of the digit window replies 0 also while BUSY is the model's
choice (log 21, DESIGN CHOICE). -/
def Obligations.DigitWindowAndUnmappedAccesses : Prop :=
  (∀ (s : State) (off : Offset) (width : Width), 0x10000 ≤ off.toNat →
    ((width = .b8 ∨ (width = .b64 ∧ off.toNat % 8 = 0)) → (s.hostRead off width).status = s.status) ∧
    (¬ (width = .b8 ∨ (width = .b64 ∧ off.toNat % 8 = 0)) →
      s.replyTo off width = 0#64 ∧ (s.hostRead off width).status = { s.status with acc := true })) ∧
  (∀ (s : State) (off : Offset) (width : Width) (v : Word), 0x30 ≤ off.toNat → off.toNat < 0x10000 →
    s.replyTo off width = 0#64 ∧ (s.hostRead off width).status = { s.status with acc := true } ∧
    s.hostWrite off width v = { s with status := { s.status with acc := true } })
end

