-- ==== Sys2Proof/Laws/BigNum.lean ====
section
/-! SUPPORT. What the arithmetic units compute, one lemma per function: the value, the carry, borrow or lost bits, and the
number of words. -/

namespace Sys2Proof.Machine

open Sys2Proof

/-! ## Values -/

theorem val_lt (ws : List Word) : val ws < 2 ^ (64 * ws.length) := by
  induction ws with
  | nil => simp [val]
  | cons w ws ih =>
    have hw := w.isLt
    rw [val, List.length_cons, Nat.mul_add, Nat.mul_one, pow_add]
    nlinarith

theorem val_replicate_zero (n : Nat) : val (List.replicate n 0#64) = 0 := by
  induction n with
  | zero => rfl
  | succ n ih => simp [List.replicate_succ, val, ih]

theorem length_wordsOf (n x : Nat) : (wordsOf n x).length = n := by
  induction n generalizing x with
  | zero => rfl
  | succ n ih => simp [wordsOf, ih]

theorem val_wordsOf (n x : Nat) : val (wordsOf n x) = x % 2 ^ (64 * n) := by
  induction n generalizing x with
  | zero => simp [wordsOf, val, Nat.mod_one]
  | succ n ih =>
    rw [wordsOf, val, ih, BitVec.toNat_ofNat, Nat.mul_add, Nat.mul_one, Nat.add_comm (64 * n), pow_add,
      Nat.mod_mul]

/-- Words are determined by their number and value. -/
theorem wordsOf_val (ws : List Word) : wordsOf ws.length (val ws) = ws := by
  induction ws with
  | nil => rfl
  | cons w ws ih =>
    have hw := w.isLt
    have h1 : (w.toNat + 2 ^ 64 * val ws) / 2 ^ 64 = val ws := by omega
    rw [List.length_cons, wordsOf, val, h1, ih]
    congr 1
    apply BitVec.eq_of_toNat_eq
    rw [BitVec.toNat_ofNat]
    omega

theorem words_eq_of_val_eq {as bs : List Word} (hl : as.length = bs.length) (hv : val as = val bs) :
    as = bs := by
  rw [← wordsOf_val as, ← wordsOf_val bs, hl, hv]

theorem lenFrom_val (ws : List Word) (i l : Nat) :
    (val ws = 0 ∧ lenFrom i l ws = l) ∨
    ∃ k, lenFrom i l ws = i + k + 1 ∧ 2 ^ (64 * k) ≤ val ws ∧ val ws < 2 ^ (64 * (k + 1)) := by
  induction ws generalizing i l with
  | nil => exact .inl ⟨rfl, rfl⟩
  | cons w ws ih =>
    have hw := w.isLt
    rcases ih (i + 1) (if w = 0#64 then l else i + 1) with ⟨h0, h1⟩ | ⟨k, h1, h2, h3⟩
    · by_cases hz : w = 0#64
      · left
        rw [if_pos hz] at h1
        simp [val, lenFrom, h0, hz, h1]
      · right
        have : w.toNat ≠ 0 := fun h => hz (BitVec.eq_of_toNat_eq (by simpa using h))
        rw [if_neg hz] at h1
        refine ⟨0, by simp [lenFrom, hz, h1], ?_, ?_⟩
        · simp [val, h0]; omega
        · simp [val, h0]; omega
    · right
      refine ⟨k + 1, by simp only [lenFrom, h1]; omega, ?_, ?_⟩
      · rw [val, Nat.mul_add 64 k 1, pow_add]; omega
      · rw [val, Nat.mul_add 64 (k + 1) 1, pow_add]; omega

/-- LEN's count is exact: 0 for the value 0, else the number of 64-bit words that hold the value's highest set bit. -/
theorem sigWords_val (ws : List Word) :
    (val ws = 0 ∧ sigWords ws = 0) ∨
    (2 ^ (64 * (sigWords ws - 1)) ≤ val ws ∧ val ws < 2 ^ (64 * sigWords ws) ∧ 0 < sigWords ws) := by
  rcases lenFrom_val ws 0 0 with h | ⟨k, h1, h2, h3⟩
  · exact .inl h
  · right
    have : sigWords ws = k + 1 := by rw [sigWords, h1]; omega
    rw [this]
    exact ⟨by simpa using h2, h3, by omega⟩

/-! ## Adder -/

theorem length_addChain (c : Nat) (as bs : List Word) (h : as.length = bs.length) :
    (addChain c as bs).1.length = as.length := by
  induction as generalizing c bs with
  | nil => cases bs <;> simp [addChain]
  | cons a as ih =>
    cases bs with
    | nil => simp at h
    | cons b bs => simp [addChain, ih _ bs (by simpa using h)]

theorem addChain_carry (c : Nat) (hc : c ≤ 1) (as bs : List Word) : (addChain c as bs).2 ≤ 1 := by
  induction as generalizing c bs with
  | nil => cases bs <;> simpa [addChain] using hc
  | cons a as ih =>
    cases bs with
    | nil => simpa [addChain] using hc
    | cons b bs =>
      have ha := a.isLt
      have hb := b.isLt
      exact ih _ (by omega) bs

/-- The carry chain adds: the words and the carry out make up the exact sum. -/
theorem addChain_val (c : Nat) (as bs : List Word) (h : as.length = bs.length) :
    val (addChain c as bs).1 + (addChain c as bs).2 * 2 ^ (64 * as.length) = val as + val bs + c := by
  induction as generalizing c bs with
  | nil =>
    obtain rfl : bs = [] := by simpa using h.symm
    simp [addChain, val]
  | cons a as ih =>
    cases bs with
    | nil => simp at h
    | cons b bs =>
      have := ih ((a.toNat + b.toNat + c) / 2 ^ 64) bs (by simpa using h)
      simp only [addChain, val, List.length_cons, BitVec.toNat_ofNat]
      rw [Nat.mul_add 64 as.length 1, pow_add]
      generalize val (addChain ((a.toNat + b.toNat + c) / 2 ^ 64) as bs).1 = x at *
      generalize (addChain ((a.toNat + b.toNat + c) / 2 ^ 64) as bs).2 = k at *
      generalize 2 ^ (64 * as.length) = p at *
      have e : k * (p * 2 ^ (64 * 1)) = 2 ^ 64 * (k * p) := by ring
      rw [e]
      omega

/-! ## Subtractor -/

theorem length_subChain (bo : Nat) (as bs : List Word) (h : as.length = bs.length) :
    (subChain bo as bs).1.length = as.length := by
  induction as generalizing bo bs with
  | nil => cases bs <;> simp [subChain]
  | cons a as ih =>
    cases bs with
    | nil => simp at h
    | cons b bs => simp [subChain, ih _ bs (by simpa using h)]

theorem subChain_borrow (bo : Nat) (hb : bo ≤ 1) (as bs : List Word) : (subChain bo as bs).2 ≤ 1 := by
  induction as generalizing bo bs with
  | nil => cases bs <;> simpa [subChain] using hb
  | cons a as ih =>
    cases bs with
    | nil => simpa [subChain] using hb
    | cons b bs =>
      simp only [subChain]
      exact ih _ (by split <;> omega) bs

/-- The borrow chain subtracts: the words, with the borrow out taken off the top, make up the exact difference. -/
theorem subChain_val (bo : Nat) (hbo : bo ≤ 1) (as bs : List Word) (h : as.length = bs.length) :
    val (subChain bo as bs).1 + val bs + bo = val as + (subChain bo as bs).2 * 2 ^ (64 * as.length) := by
  induction as generalizing bo bs with
  | nil =>
    obtain rfl : bs = [] := by simpa using h.symm
    simp [subChain, val]
  | cons a as ih =>
    cases bs with
    | nil => simp at h
    | cons b bs =>
      have ha := a.isLt
      have hb := b.isLt
      set q : Nat := if (a.toNat : Int) - b.toNat - bo < 0 then 1 else 0 with hq
      have hq1 : q ≤ 1 := by rw [hq]; split <;> omega
      have := ih q hq1 bs (by simpa using h)
      have hw : ((BitVec.ofInt 64 ((a.toNat : Int) - b.toNat - bo)).toNat : Int)
          = (a.toNat : Int) - b.toNat - bo + q * 2 ^ 64 := by
        rw [BitVec.toNat_ofInt, Int.toNat_of_nonneg (Int.emod_nonneg _ (by decide)), hq]
        split <;> omega
      simp only [subChain, val, List.length_cons]
      rw [← hq, Nat.mul_add 64 as.length 1, pow_add]
      generalize val (subChain q as bs).1 = x at *
      generalize (subChain q as bs).2 = k at *
      generalize 2 ^ (64 * as.length) = p at *
      have e : k * (p * 2 ^ (64 * 1)) = 2 ^ 64 * (k * p) := by ring
      rw [e]
      omega

/-! ## Shifter -/

theorem length_shlWords (n : Nat) (below : Word) (ws : List Word) : (shlWords n below ws).length = ws.length := by
  induction ws generalizing below with
  | nil => rfl
  | cons w ws ih => simp [shlWords, ih]

/-- The bits that leave a word at the top of a left shift. -/
theorem ushr_eq_div (n : Nat) (hn : n ≤ 63) (w : Word) :
    (if 0 < n then w >>> (64 - n) else 0#64).toNat = w.toNat * 2 ^ n / 2 ^ 64 := by
  have hw := w.isLt
  split
  · rename_i h
    rw [BitVec.toNat_ushiftRight, Nat.shiftRight_eq_div_pow]
    have e : (2 : Nat) ^ 64 = 2 ^ (64 - n) * 2 ^ n := by rw [← pow_add]; congr 1; omega
    rw [e, Nat.mul_div_mul_right _ _ (by positivity)]
  · obtain rfl : n = 0 := by omega
    simp
    omega

/-- A left shift joined with bits below it is a sum. -/
theorem shl_or_toNat (n : Nat) (hn : n ≤ 63) (w : Word) (x : Word) (hx : x.toNat < 2 ^ n) :
    (w <<< n ||| x).toNat = w.toNat * 2 ^ n % 2 ^ 64 + x.toNat := by
  have hw := w.isLt
  rw [BitVec.toNat_or, BitVec.toNat_shiftLeft, Nat.shiftLeft_eq]
  have e : (2 : Nat) ^ 64 = 2 ^ (64 - n) * 2 ^ n := by rw [← pow_add]; congr 1; omega
  have : w.toNat * 2 ^ n % 2 ^ 64 = 2 ^ n * (w.toNat % 2 ^ (64 - n)) := by
    rw [e, Nat.mul_mod_mul_right, Nat.mul_comm]
  rw [this, Nat.two_pow_add_eq_or_of_lt hx]

theorem carryIn_lt (n : Nat) (hn : n ≤ 63) (w : Word) :
    (if 0 < n then w >>> (64 - n) else 0#64).toNat < 2 ^ n := by
  have hw := w.isLt
  rw [ushr_eq_div n hn]
  apply Nat.div_lt_of_lt_mul
  have : 0 < 2 ^ n := by positivity
  nlinarith

theorem getLastD_cons_cons (w a : Word) (ws : List Word) (x : Word) :
    (w :: a :: ws).getLastD x = (a :: ws).getLastD x := by
  simp [List.getLastD]

/-- The left shifter multiplies: with the bits coming in from below and those lost at the top. -/
theorem shlWords_val_from (n : Nat) (hn : n ≤ 63) (below : Word) (ws : List Word) :
    val (shlWords n below ws)
      + (if ws = [] then below.toNat * 2 ^ n / 2 ^ 64 else (shlLost n ws).toNat) * 2 ^ (64 * ws.length)
      = val ws * 2 ^ n + below.toNat * 2 ^ n / 2 ^ 64 := by
  induction ws generalizing below with
  | nil => simp [shlWords, val]
  | cons w ws ih =>
    have ih := ih w
    have hlost : (if ws = [] then w.toNat * 2 ^ n / 2 ^ 64 else (shlLost n ws).toNat) = (shlLost n (w :: ws)).toNat := by
      cases ws with
      | nil => simp only [if_true, shlLost, List.getLastD, List.getLast_singleton]; rw [← ushr_eq_div n hn w]
      | cons a ws => simp only [shlLost, getLastD_cons_cons]; simp
    rw [hlost] at ih
    simp only [shlWords, val, List.length_cons, if_neg (List.cons_ne_nil w ws)]
    rw [shl_or_toNat n hn w _ (carryIn_lt n hn below), ushr_eq_div n hn below, Nat.mul_add 64 ws.length 1, pow_add]
    generalize val (shlWords n w ws) = x at *
    generalize (shlLost n (w :: ws)).toNat = k at *
    generalize 2 ^ (64 * ws.length) = p at *
    have e : k * (p * 2 ^ (64 * 1)) = 2 ^ 64 * (k * p) := by ring
    have e2 : (w.toNat + 2 ^ 64 * val ws) * 2 ^ n = w.toNat * 2 ^ n + 2 ^ 64 * (val ws * 2 ^ n) := by ring
    rw [e, e2]
    generalize k * p = kp at *
    generalize val ws * 2 ^ n = vp at *
    generalize w.toNat * 2 ^ n = wp at *
    omega

/-- SHL's words and lost bits make up the exact product by `2^n`. -/
theorem shlWords_val (n : Nat) (hn : n ≤ 63) (ws : List Word) :
    val (shlWords n 0#64 ws) + (shlLost n ws).toNat * 2 ^ (64 * ws.length) = val ws * 2 ^ n := by
  have h := shlWords_val_from n hn 0#64 ws
  cases ws with
  | nil => simp [shlWords, val, shlLost, List.getLastD] at *
  | cons w ws => simpa using h

theorem length_shrWords (n : Nat) (ws : List Word) : (shrWords n ws).length = ws.length := by
  induction ws with
  | nil => rfl
  | cons w ws ih => simp [shrWords, ih]

theorem shr_or_toNat (n : Nat) (hn : n ≤ 63) (w x : Word) :
    (w >>> n ||| (if 0 < n then x <<< (64 - n) else 0#64)).toNat
      = w.toNat / 2 ^ n + x.toNat % 2 ^ n * 2 ^ (64 - n) % 2 ^ 64 := by
  have hw := w.isLt
  split
  · rename_i h
    have e : (2 : Nat) ^ 64 = 2 ^ n * 2 ^ (64 - n) := by rw [← pow_add]; congr 1; omega
    rw [BitVec.toNat_or, BitVec.toNat_ushiftRight, BitVec.toNat_shiftLeft, Nat.shiftLeft_eq, Nat.shiftRight_eq_div_pow]
    have h1 : x.toNat * 2 ^ (64 - n) % 2 ^ 64 = 2 ^ (64 - n) * (x.toNat % 2 ^ n) := by
      rw [e, Nat.mul_mod_mul_right, Nat.mul_comm]
    have h2 : x.toNat % 2 ^ n * 2 ^ (64 - n) % 2 ^ 64 = 2 ^ (64 - n) * (x.toNat % 2 ^ n) := by
      rw [e, Nat.mul_mod_mul_right, Nat.mod_mod, Nat.mul_comm]
    have h3 : w.toNat / 2 ^ n < 2 ^ (64 - n) := by
      apply Nat.div_lt_of_lt_mul
      rw [← e]; exact hw
    rw [h1, h2, Nat.lor_comm, ← Nat.two_pow_add_eq_or_of_lt h3, Nat.add_comm]
  · obtain rfl : n = 0 := by omega
    simp [Nat.mod_one]

/-- SHR's words are the exact quotient by `2^n`. -/
theorem shrWords_val (n : Nat) (hn : n ≤ 63) (ws : List Word) : val (shrWords n ws) = val ws / 2 ^ n := by
  induction ws with
  | nil => simp [shrWords, val]
  | cons w ws ih =>
    have hhead : (ws.headD 0#64).toNat % 2 ^ n = val ws % 2 ^ n := by
      cases ws with
      | nil => simp [val]
      | cons a ws =>
        have e : (2 : Nat) ^ 64 = 2 ^ n * 2 ^ (64 - n) := by rw [← pow_add]; congr 1; omega
        simp only [List.headD_cons, val]
        rw [e, Nat.mul_assoc, Nat.add_mul_mod_self_left]
    have e : (2 : Nat) ^ 64 = 2 ^ (64 - n) * 2 ^ n := by rw [← pow_add]; congr 1; omega
    have hlt : val ws % 2 ^ n * 2 ^ (64 - n) < 2 ^ 64 := by
      have h1 : val ws % 2 ^ n < 2 ^ n := Nat.mod_lt _ (by positivity)
      rw [e, Nat.mul_comm (2 ^ (64 - n))]
      exact Nat.mul_lt_mul_of_pos_right h1 (by positivity)
    rw [shrWords, val, ih, shr_or_toNat n hn, hhead, Nat.mod_eq_of_lt hlt, val]
    have key : w.toNat + 2 ^ 64 * val ws = w.toNat + 2 ^ n * (2 ^ (64 - n) * val ws) := by
      rw [e]; ring
    rw [key, Nat.add_mul_div_left _ _ (by positivity)]
    have hd := Nat.div_add_mod (val ws) (2 ^ n)
    generalize val ws / 2 ^ n = q at *
    generalize val ws % 2 ^ n = r at *
    rw [← hd, e]
    ring

/-! ## Multiplier -/

theorem length_mulWords (n : Nat) (a b : List Word) : (mulWords n a b).1.length = n := length_wordsOf _ _

theorem mulWords_val (n : Nat) (a b : List Word) :
    val (mulWords n a b).1 = val a * val b % 2 ^ (64 * n) ∧
    ((mulWords n a b).2 = true ↔ 2 ^ (64 * n) ≤ val a * val b) := by
  constructor
  · rw [mulWords, val_wordsOf, Nat.mod_mod]
  · simp [mulWords]

end Sys2Proof.Machine
end

