-- ==== Sys2Proof/Laws/Decimal.lean ====
section
/-! SUPPORT. What the digit-doubling converter computes (R160 to R163): the number its digits stand for, and that every digit
is a decimal digit. -/

namespace Sys2Proof.Machine

open Sys2Proof

theorem length_doubleDigits (ds : List Nat) : (doubleDigits ds).1.length = ds.length := by
  induction ds with
  | nil => rfl
  | cons d ds ih => simp only [doubleDigits]; split <;> simp [ih]

theorem length_addToLast (b : Nat) (ds : List Nat) : (addToLast b ds).length = ds.length := by
  induction ds using addToLast.induct with
  | case1 => rfl
  | case2 d => rfl
  | case3 d e ds ih => simp [addToLast, ih]

theorem length_decLoop (a j : Nat) (ds : List Nat) : (decLoop a j ds).length = ds.length := by
  induction j generalizing ds with
  | zero => rfl
  | succ j ih => rw [decLoop, ih, length_addToLast, length_doubleDigits]

theorem length_decDigits (m len a : Nat) : (decDigits m len a).length = len := by
  rw [decDigits, length_decLoop, List.length_replicate]

theorem digitsVal_lt (ds : List Nat) (h : AllDigits ds) : digitsVal ds < 10 ^ ds.length := by
  induction ds with
  | nil => simp [digitsVal]
  | cons d ds ih =>
    have hd : d ≤ 9 := h d (by simp)
    have := ih fun x hx => h x (by simp [hx])
    rw [digitsVal, List.length_cons, pow_succ]
    nlinarith

theorem doubleDigits_cons (d : Nat) (ds : List Nat) : doubleDigits (d :: ds) =
    if 10 ≤ 2 * d + (doubleDigits ds).2 then ((2 * d + (doubleDigits ds).2 - 10) :: (doubleDigits ds).1, 1)
    else ((2 * d + (doubleDigits ds).2) :: (doubleDigits ds).1, 0) := rfl

/-- Doubling the digits doubles the number, with the carry out above the first digit; the digits stay decimal. -/
theorem doubleDigits_val (ds : List Nat) (h : AllDigits ds) :
    digitsVal (doubleDigits ds).1 + (doubleDigits ds).2 * 10 ^ ds.length = 2 * digitsVal ds ∧
    AllDigits (doubleDigits ds).1 ∧ (doubleDigits ds).2 ≤ 1 := by
  induction ds with
  | nil => simp [doubleDigits, digitsVal, AllDigits]
  | cons d ds ih =>
    have hd : d ≤ 9 := h d (by simp)
    obtain ⟨h1, h2, h3⟩ := ih fun x hx => h x (by simp [hx])
    have hlen := length_doubleDigits ds
    simp only [doubleDigits]
    split
    · rename_i ht
      refine ⟨?_, ?_, le_refl 1⟩
      · simp only [digitsVal, hlen, List.length_cons, pow_succ]
        generalize digitsVal (doubleDigits ds).1 = x at *
        generalize (doubleDigits ds).2 = k at *
        obtain ⟨u, hu⟩ : ∃ u, 2 * d + k = 10 + u := ⟨2 * d + k - 10, by omega⟩
        have : 2 * d + k - 10 = u := by omega
        rw [this]
        generalize 10 ^ ds.length = p at *
        nlinarith [congrArg (· * p) hu]
      · intro x hx
        rcases List.mem_cons.mp hx with rfl | hx
        · omega
        · exact h2 x hx
    · rename_i ht
      refine ⟨?_, ?_, Nat.zero_le 1⟩
      · simp only [digitsVal, hlen, List.length_cons]
        nlinarith
      · intro x hx
        rcases List.mem_cons.mp hx with rfl | hx
        · omega
        · exact h2 x hx

/-- After doubling, the last digit is even and at most 8. -/
theorem doubleDigits_last (ds : List Nat) (h : AllDigits ds) :
    lastDigit (doubleDigits ds).1 ≤ 8 := by
  induction ds with
  | nil => simp [doubleDigits, lastDigit]
  | cons d ds ih =>
    have hd : d ≤ 9 := h d (by simp)
    have ih := ih fun x hx => h x (by simp [hx])
    cases ds with
    | nil =>
      rw [doubleDigits_cons]
      split <;> simp [doubleDigits, lastDigit] at * <;> omega
    | cons e es =>
      have hne : (doubleDigits (e :: es)).1 ≠ [] := by
        rw [← List.length_pos_iff, length_doubleDigits]; simp
      obtain ⟨y, ys, hy⟩ := List.exists_cons_of_ne_nil hne
      rw [hy] at ih
      rw [doubleDigits]
      simp only [hy]
      split <;> simpa [lastDigit, List.getLastD] using ih

/-- Adding a bit to the last digit adds it to the number. -/
theorem addToLast_val (b : Nat) (ds : List Nat) (hne : ds ≠ []) :
    digitsVal (addToLast b ds) = digitsVal ds + b := by
  induction ds using addToLast.induct with
  | case1 => exact absurd rfl hne
  | case2 d => simp [addToLast, digitsVal]
  | case3 d e ds ih =>
    rw [addToLast, digitsVal, ih (by simp), length_addToLast]
    simp only [digitsVal]
    omega

theorem addToLast_digits (b : Nat) (hb : b ≤ 1) (ds : List Nat) (h : AllDigits ds) (hl : lastDigit ds ≤ 8) :
    AllDigits (addToLast b ds) := by
  induction ds using addToLast.induct with
  | case1 => exact h
  | case2 d =>
    intro x hx
    simp only [lastDigit, List.getLastD, addToLast, List.mem_singleton, List.getLast_singleton] at hx hl
    omega
  | case3 d e ds ih =>
    have ih := ih (fun x hx => h x (by simp [hx])) (by simpa [lastDigit, List.getLastD] using hl)
    intro x hx
    rcases List.mem_cons.mp (by simpa [addToLast] using hx) with rfl | hx
    · exact h x (by simp)
    · exact ih x hx

/-- The loop invariant of DEC (R162): after the step for bit `j` the digits hold `floor(A / 2^j)`, while that fits. -/
theorem decLoop_val (a j : Nat) (ds : List Nat) (hne : ds ≠ []) (h : AllDigits ds)
    (hv : digitsVal ds = a / 2 ^ j) (hfit : a < 10 ^ ds.length) :
    digitsVal (decLoop a j ds) = a ∧ AllDigits (decLoop a j ds) := by
  induction j generalizing ds with
  | zero => exact ⟨by simpa [decLoop] using hv, h⟩
  | succ j ih =>
    obtain ⟨h1, h2, h3⟩ := doubleDigits_val ds h
    have hlen := length_doubleDigits ds
    have hne2 : (doubleDigits ds).1 ≠ [] := by
      rw [← List.length_pos_iff, hlen]; exact List.length_pos_iff.mpr hne
    have hb : natBit a j ≤ 1 := by have := Nat.mod_lt (a / 2 ^ j) (by decide : 0 < 2); rw [natBit]; omega
    have hstep : 2 * digitsVal ds + natBit a j = a / 2 ^ j := by
      rw [hv, natBit, pow_succ, ← Nat.div_div_eq_div_mul]; omega
    have hle : a / 2 ^ j ≤ a := Nat.div_le_self _ _
    have hk : (doubleDigits ds).2 = 0 := by
      by_contra hk
      have hk1 : (doubleDigits ds).2 = 1 := by omega
      rw [hk1] at h1
      omega
    have hv2 : digitsVal (addToLast (natBit a j) (doubleDigits ds).1) = a / 2 ^ j := by
      rw [addToLast_val _ _ hne2]
      rw [hk] at h1
      omega
    rw [decLoop]
    apply ih
    · rw [← List.length_pos_iff, length_addToLast, hlen]; exact List.length_pos_iff.mpr hne
    · exact addToLast_digits _ hb _ h2 (doubleDigits_last ds h)
    · exact hv2
    · rwa [length_addToLast, hlen]

theorem digitsVal_replicate_zero (n : Nat) : digitsVal (List.replicate n 0) = 0 := by
  induction n with
  | zero => rfl
  | succ n ih => simp [List.replicate_succ, digitsVal, ih]

/-- The digits of DEC stand for the value, if it has at most `m` bits and at most `len` digits. -/
theorem decDigits_val (m len a : Nat) (hlen : 0 < len) (hm : a < 2 ^ m) (hfit : a < 10 ^ len) :
    digitsVal (decDigits m len a) = a ∧ AllDigits (decDigits m len a) := by
  apply decLoop_val
  · rw [← List.length_pos_iff, List.length_replicate]; exact hlen
  · intro d hd
    rw [List.eq_of_mem_replicate hd]
    decide
  · rw [digitsVal_replicate_zero, Nat.div_eq_of_lt hm]
  · rwa [List.length_replicate]

/-! ## The trimmed length -/

theorem firstDigit_lt (ds : List Nat) (hne : ds ≠ []) : firstDigit ds < ds.length := by
  induction ds using firstDigit.induct with
  | case1 => exact absurd rfl hne
  | case2 d => simp [firstDigit]
  | case3 e ds ih => have := ih (by simp); simp only [firstDigit, if_true, List.length_cons] at *; omega
  | case4 d e ds hd => simp [firstDigit, hd]

/-- Before the first significant digit every digit is 0. -/
theorem getD_before_firstDigit (ds : List Nat) (k : Nat) (hk : k < firstDigit ds) : ds.getD k 0 = 0 := by
  induction ds using firstDigit.induct generalizing k with
  | case1 => simp [firstDigit] at hk
  | case2 d => simp [firstDigit] at hk
  | case3 e ds ih =>
    cases k with
    | zero => rfl
    | succ k => simp only [firstDigit, if_true] at hk; simpa using ih k (by omega)
  | case4 d e ds hd => simp [firstDigit, hd] at hk

/-- The first significant digit is not 0, unless it is the last digit. -/
theorem getD_firstDigit (ds : List Nat) (h : firstDigit ds + 1 < ds.length) : ds.getD (firstDigit ds) 0 ≠ 0 := by
  induction ds using firstDigit.induct with
  | case1 => simp at h
  | case2 d => simp at h
  | case3 e ds ih =>
    simp only [firstDigit, if_true, List.length_cons] at h ⊢
    simpa using ih (by simp only [List.length_cons]; omega)
  | case4 d e ds hd => simp [firstDigit, hd]

/-- A digit string whose number has one digit less than the string begins with 0, and so does not start there. -/
theorem firstDigit_pos (ds : List Nat) (hl : 2 ≤ ds.length) (hv : digitsVal ds < 10 ^ (ds.length - 1)) :
    0 < firstDigit ds := by
  match ds, hl with
  | d :: e :: ds, _ =>
    have : d = 0 := by
      by_contra hd
      have h1 : 1 ≤ d := Nat.one_le_iff_ne_zero.mpr hd
      have h2 : 10 ^ (e :: ds).length ≤ d * 10 ^ (e :: ds).length := Nat.le_mul_of_pos_left _ h1
      rw [digitsVal] at hv
      simp only [List.length_cons, Nat.add_sub_cancel] at hv h2
      omega
    simp [firstDigit, this]

/-! ## DLEN -/

theorem digitCount_spec (fuel x : Nat) (hf : x < 2 ^ fuel) : x < 10 ^ digitCount fuel x ∧
    (0 < x → 10 ^ (digitCount fuel x - 1) ≤ x ∧ 0 < digitCount fuel x) := by
  induction fuel generalizing x with
  | zero => simp at hf; subst hf; simp [digitCount]
  | succ f ih =>
    rw [digitCount]
    split
    · rename_i h; subst h; simp
    · rename_i h
      have hx : x / 10 < 2 ^ f := by rw [pow_succ] at hf; omega
      obtain ⟨h1, h2⟩ := ih (x / 10) hx
      refine ⟨by rw [pow_succ]; omega, fun _ => ⟨?_, by omega⟩⟩
      rw [Nat.add_sub_cancel]
      rcases Nat.eq_zero_or_pos (x / 10) with h0 | hp
      · rw [h0]
        have : digitCount f 0 = 0 := by cases f <;> simp [digitCount]
        rw [this]; omega
      · obtain ⟨h3, h4⟩ := h2 hp
        have e : 10 ^ digitCount f (x / 10) = 10 * 10 ^ (digitCount f (x / 10) - 1) := by
          rw [← pow_succ']; congr 1; omega
        omega

/-- DLEN is one more than the number of decimal digits of `2^M` (R9). -/
theorem dlen_spec (p : Params) : 2 ≤ p.dlen ∧ 2 ^ p.bits < 10 ^ (p.dlen - 1) ∧ 10 ^ (p.dlen - 2) ≤ 2 ^ p.bits := by
  obtain ⟨h1, h2⟩ := digitCount_spec (p.bits + 1) (2 ^ p.bits) (by rw [pow_succ]; have := Nat.two_pow_pos p.bits; omega)
  obtain ⟨h3, h4⟩ := h2 (by positivity)
  rw [Params.dlen, ndigitsOfPow]
  exact ⟨by omega, by simpa using h1, h3⟩

/-- A DLEN within the 16-bit field of PARAM, for every legal N (R36). -/
theorem dlen_lt (p : Params) (h : p.legal = true) : p.dlen < 2 ^ 16 := by
  obtain ⟨h1, _, h3⟩ := dlen_spec p
  simp only [Params.legal, Bool.and_eq_true, decide_eq_true_eq] at h
  have hb : 2 ^ p.bits = 4 ^ (32 * p.n) := by
    rw [Params.bits, show 64 * p.n = 2 * (32 * p.n) by omega, pow_mul]; norm_num
  have hlt : 4 ^ (32 * p.n) < 10 ^ (32 * p.n) := Nat.pow_lt_pow_left (by decide) (by omega)
  have : p.dlen - 2 < 32 * p.n := (Nat.pow_lt_pow_iff_right (by decide : 1 < 10)).mp (by omega)
  omega

end Sys2Proof.Machine
end

