-- ==== Sys2Proof/Laws/Decode.lean ====
section
/-! SUPPORT. The match and mask of each row say that the opcode is the row's and that the unused fields are 0 (R85, R86). -/

namespace Sys2Proof

/-- Equality of masked words, bit by bit. -/
theorem and_eq_iff (c m p : Cmd) : (c &&& m = p) ↔ ∀ i < 32, (c.getLsbD i && m.getLsbD i) = p.getLsbD i := by
  constructor
  · rintro rfl i hi
    simp
  · intro h
    apply BitVec.eq_of_getLsbD_eq
    intro i hi
    rw [BitVec.getLsbD_and]
    exact h i hi

/-- A field is a given number if its bits are. -/
theorem cmdBits_eq_iff (c : Cmd) (hi lo v : Nat) (hv : v < 2 ^ (hi + 1 - lo)) :
    cmdBits c hi lo = v ↔ ∀ i < hi + 1 - lo, c.getLsbD (lo + i) = v.testBit i := by
  rw [cmdBits]
  constructor
  · rintro rfl i hi'
    rw [Nat.testBit_mod_two_pow, Nat.testBit_div_two_pow]
    simp [hi', BitVec.getLsbD, Nat.add_comm]
  · intro h
    apply Nat.eq_of_testBit_eq
    intro i
    rw [Nat.testBit_mod_two_pow, Nat.testBit_div_two_pow]
    by_cases hi' : i < hi + 1 - lo
    · have := h i hi'
      rw [BitVec.getLsbD, Nat.add_comm] at this
      simp [hi', this]
    · rw [Nat.testBit_lt_two_pow (lt_of_lt_of_le hv (Nat.pow_le_pow_right (by decide) (by omega)))]
      simp [hi']

theorem fits_iff (c : Cmd) (o : Op) : o.fits c = true ↔ cmdBits c 31 24 = o.code.toNat ∧ unusedZero c o := by
  rw [Op.fits, beq_iff_eq, and_eq_iff]
  cases o <;>
    simp only [Op.mask, Op.pattern, Op.code, unusedZero] <;>
    simp only [cmdBits_eq_iff, Nat.reducePow, Nat.reduceSub, Nat.reduceAdd, Nat.reduceLT, BitVec.reduceToNat,
      Nat.forall_lt_succ_left, Nat.not_lt_zero, BitVec.getLsbD_ofNat] <;>
    norm_num [Nat.testBit_eq_decide_div_mod_eq] <;>
    constructor <;> intro h <;> simp [h]

theorem mem_all (o : Op) : o ∈ Op.all := by cases o <;> decide

/-- The opcode byte tells the rows apart. -/
theorem code_injective {o p : Op} (h : o.code.toNat = p.code.toNat) : o = p := by
  cases o <;> cases p <;> first | rfl | exact absurd h (by decide)

/-- A word fits at most one row (R88). -/
theorem fits_unique {c : Cmd} {o p : Op} (ho : o.fits c = true) (hp : p.fits c = true) : o = p :=
  code_injective (((fits_iff c o).mp ho).1.symm.trans ((fits_iff c p).mp hp).1)

/-- A word that fits a row decodes to that row's command. -/
theorem decode_of_fits {c : Cmd} {o : Op} (h : o.fits c = true) :
    decode c = .ok (o.build (cmdBits c 23 20) (cmdBits c 19 16) (cmdBits c 15 12) (cmdBits c 11 0)) := by
  have hf : Op.all.find? (Op.fits c) = some o := by
    cases hf : Op.all.find? (Op.fits c) with
    | none => exact absurd h (List.find?_eq_none.mp hf o (mem_all o))
    | some p => rw [fits_unique h (List.find?_some hf)]
  rw [decode, hf]

/-- What a decoded command is: its row fits the word, and its operands are the fields. -/
theorem decode_ok {c : Cmd} {i : Instr} (h : decode c = .ok i) :
    ∃ o : Op, o.fits c = true ∧
      i = o.build (cmdBits c 23 20) (cmdBits c 19 16) (cmdBits c 15 12) (cmdBits c 11 0) := by
  rw [decode] at h
  split at h
  · rename_i o hf
    exact ⟨o, List.find?_some hf, by injection h with h; exact h.symm⟩
  · cases h

/-- A word is ILLEGAL exactly if it fits no row, and then the reason is the one `illegalReason` gives. -/
theorem decode_error_iff (c : Cmd) (e : Illegal) :
    decode c = .error e ↔ (∀ o : Op, o.fits c = false) ∧ e = illegalReason c := by
  rw [decode]
  split
  · rename_i o hf
    constructor
    · intro h; cases h
    · rintro ⟨h, -⟩
      have := List.find?_some hf
      rw [h o] at this
      cases this
  · rename_i hf
    have hall : ∀ o : Op, o.fits c = false := fun o => by
      simpa using List.find?_eq_none.mp hf o (mem_all o)
    constructor
    · intro h; injection h with h; exact ⟨hall, h.symm⟩
    · rintro ⟨-, rfl⟩; rfl

/-- The fields of a word are numbers of their widths. -/
theorem cmdBits_lt (c : Cmd) (hi lo : Nat) : cmdBits c hi lo < 2 ^ (hi + 1 - lo) :=
  Nat.mod_lt _ (by positivity)

/-- A command word is the sum of its fields at their places (R82, R89). -/
theorem enc_fields (c : Cmd) :
    enc (opField c) (cmdBits c 23 20) (cmdBits c 19 16) (cmdBits c 15 12) (cmdBits c 11 0) = c := by
  apply BitVec.eq_of_toNat_eq
  have hc := c.isLt
  simp only [enc, opField, cmdBits, BitVec.toNat_ofNat]
  omega

/-- The fields of an encoded word are the numbers it was made from, where they fit (R82, R89). -/
theorem fields_enc (op : Byte) (rd rs1 rs2 imm : Nat) (h1 : rd < 16) (h2 : rs1 < 16) (h3 : rs2 < 16) (h4 : imm < 4096) :
    cmdBits (enc op rd rs1 rs2 imm) 31 24 = op.toNat ∧ cmdBits (enc op rd rs1 rs2 imm) 23 20 = rd ∧
    cmdBits (enc op rd rs1 rs2 imm) 19 16 = rs1 ∧ cmdBits (enc op rd rs1 rs2 imm) 15 12 = rs2 ∧
    cmdBits (enc op rd rs1 rs2 imm) 11 0 = imm := by
  have hop := op.isLt
  simp only [enc, cmdBits, BitVec.toNat_ofNat]
  omega

end Sys2Proof
end

