-- ==== Sys2Proof/Laws/State.lean ====
section
/-! SUPPORT. What each named update of the state does to each field, so that no proof unfolds a record update. -/

namespace Sys2Proof.Machine

open Sys2Proof

variable (s : State)

/-! ### State.complete -/

@[simp] theorem State.complete_params : s.complete.params = s.params := rfl
@[simp] theorem State.complete_regs : s.complete.regs = s.regs := rfl
@[simp] theorem State.complete_data : s.complete.data = s.data := rfl
@[simp] theorem State.complete_ctrl : s.complete.ctrl = s.ctrl := rfl
@[simp] theorem State.complete_declen : s.complete.declen = s.declen := rfl
@[simp] theorem State.complete_digits : s.complete.digits = s.digits := rfl
@[simp] theorem State.complete_pending : s.complete.pending = none := rfl
@[simp] theorem State.complete_delay : s.complete.delay = 0 := rfl
@[simp] theorem State.complete_draws : s.complete.draws = s.draws + 1 := rfl
@[simp] theorem State.complete_host : s.complete.host = s.host := rfl
@[simp] theorem State.complete_reads : s.complete.reads = s.reads := rfl
@[simp] theorem State.complete_busy : s.complete.status.busy = false := rfl
@[simp] theorem State.complete_z : s.complete.status.z = s.status.z := rfl
@[simp] theorem State.complete_w : s.complete.status.w = s.status.w := rfl
@[simp] theorem State.complete_ovr : s.complete.status.ovr = s.status.ovr := rfl
@[simp] theorem State.complete_acc : s.complete.status.acc = s.status.acc := rfl
@[simp] theorem State.complete_err : s.complete.status.err = s.status.err := rfl
@[simp] theorem State.complete_errop : s.complete.status.errop = s.status.errop := rfl

/-! ### State.raise -/

@[simp] theorem State.raise_params (e : Error) (op : Byte) : (s.raise e op).params = s.params := rfl
@[simp] theorem State.raise_regs (e : Error) (op : Byte) : (s.raise e op).regs = s.regs := rfl
@[simp] theorem State.raise_data (e : Error) (op : Byte) : (s.raise e op).data = s.data := rfl
@[simp] theorem State.raise_ctrl (e : Error) (op : Byte) : (s.raise e op).ctrl = s.ctrl := rfl
@[simp] theorem State.raise_declen (e : Error) (op : Byte) : (s.raise e op).declen = s.declen := rfl
@[simp] theorem State.raise_digits (e : Error) (op : Byte) : (s.raise e op).digits = s.digits := rfl
@[simp] theorem State.raise_pending (e : Error) (op : Byte) : (s.raise e op).pending = none := rfl
@[simp] theorem State.raise_delay (e : Error) (op : Byte) : (s.raise e op).delay = 0 := rfl
@[simp] theorem State.raise_draws (e : Error) (op : Byte) : (s.raise e op).draws = s.draws + 1 := rfl
@[simp] theorem State.raise_host (e : Error) (op : Byte) : (s.raise e op).host = s.host := rfl
@[simp] theorem State.raise_reads (e : Error) (op : Byte) : (s.raise e op).reads = s.reads := rfl
@[simp] theorem State.raise_busy (e : Error) (op : Byte) : (s.raise e op).status.busy = false := rfl
@[simp] theorem State.raise_z (e : Error) (op : Byte) : (s.raise e op).status.z = s.status.z := rfl
@[simp] theorem State.raise_w (e : Error) (op : Byte) : (s.raise e op).status.w = s.status.w := rfl
@[simp] theorem State.raise_ovr (e : Error) (op : Byte) : (s.raise e op).status.ovr = s.status.ovr := rfl
@[simp] theorem State.raise_acc (e : Error) (op : Byte) : (s.raise e op).status.acc = s.status.acc := rfl
@[simp] theorem State.raise_err (e : Error) (op : Byte) : (s.raise e op).status.err = e.code := rfl
@[simp] theorem State.raise_errop (e : Error) (op : Byte) : (s.raise e op).status.errop = op := rfl

/-! ### State.clearError -/

@[simp] theorem State.clearError_params : s.clearError.params = s.params := rfl
@[simp] theorem State.clearError_regs : s.clearError.regs = s.regs := rfl
@[simp] theorem State.clearError_data : s.clearError.data = s.data := rfl
@[simp] theorem State.clearError_ctrl : s.clearError.ctrl = s.ctrl := rfl
@[simp] theorem State.clearError_declen : s.clearError.declen = s.declen := rfl
@[simp] theorem State.clearError_digits : s.clearError.digits = s.digits := rfl
@[simp] theorem State.clearError_pending : s.clearError.pending = s.pending := rfl
@[simp] theorem State.clearError_delay : s.clearError.delay = s.delay := rfl
@[simp] theorem State.clearError_draws : s.clearError.draws = s.draws := rfl
@[simp] theorem State.clearError_host : s.clearError.host = s.host := rfl
@[simp] theorem State.clearError_reads : s.clearError.reads = s.reads := rfl
@[simp] theorem State.clearError_busy : s.clearError.status.busy = s.status.busy := rfl
@[simp] theorem State.clearError_z : s.clearError.status.z = s.status.z := rfl
@[simp] theorem State.clearError_w : s.clearError.status.w = s.status.w := rfl
@[simp] theorem State.clearError_ovr : s.clearError.status.ovr = s.status.ovr := rfl
@[simp] theorem State.clearError_acc : s.clearError.status.acc = s.status.acc := rfl
@[simp] theorem State.clearError_err : s.clearError.status.err = 0#4 := rfl
@[simp] theorem State.clearError_errop : s.clearError.status.errop = 0#8 := rfl

/-! ### State.writeReg -/

@[simp] theorem State.writeReg_params (r : Nat) (ws : List Word) : (s.writeReg r ws).params = s.params := rfl
@[simp] theorem State.writeReg_regs (r : Nat) (ws : List Word) : (s.writeReg r ws).regs = s.regs.set r (ws.map RegWord.ofWord) := rfl
@[simp] theorem State.writeReg_data (r : Nat) (ws : List Word) : (s.writeReg r ws).data = s.data := rfl
@[simp] theorem State.writeReg_ctrl (r : Nat) (ws : List Word) : (s.writeReg r ws).ctrl = s.ctrl := rfl
@[simp] theorem State.writeReg_declen (r : Nat) (ws : List Word) : (s.writeReg r ws).declen = s.declen := rfl
@[simp] theorem State.writeReg_digits (r : Nat) (ws : List Word) : (s.writeReg r ws).digits = s.digits := rfl
@[simp] theorem State.writeReg_pending (r : Nat) (ws : List Word) : (s.writeReg r ws).pending = s.pending := rfl
@[simp] theorem State.writeReg_delay (r : Nat) (ws : List Word) : (s.writeReg r ws).delay = s.delay := rfl
@[simp] theorem State.writeReg_draws (r : Nat) (ws : List Word) : (s.writeReg r ws).draws = s.draws := rfl
@[simp] theorem State.writeReg_host (r : Nat) (ws : List Word) : (s.writeReg r ws).host = s.host := rfl
@[simp] theorem State.writeReg_reads (r : Nat) (ws : List Word) : (s.writeReg r ws).reads = s.reads := rfl
@[simp] theorem State.writeReg_busy (r : Nat) (ws : List Word) : (s.writeReg r ws).status.busy = s.status.busy := rfl
@[simp] theorem State.writeReg_z (r : Nat) (ws : List Word) : (s.writeReg r ws).status.z = s.status.z := rfl
@[simp] theorem State.writeReg_w (r : Nat) (ws : List Word) : (s.writeReg r ws).status.w = s.status.w := rfl
@[simp] theorem State.writeReg_ovr (r : Nat) (ws : List Word) : (s.writeReg r ws).status.ovr = s.status.ovr := rfl
@[simp] theorem State.writeReg_acc (r : Nat) (ws : List Word) : (s.writeReg r ws).status.acc = s.status.acc := rfl
@[simp] theorem State.writeReg_err (r : Nat) (ws : List Word) : (s.writeReg r ws).status.err = s.status.err := rfl
@[simp] theorem State.writeReg_errop (r : Nat) (ws : List Word) : (s.writeReg r ws).status.errop = s.status.errop := rfl

/-! ### State.writeWord -/

@[simp] theorem State.writeWord_params (r : Nat) (pos : Nat) (v : Word) : (s.writeWord r pos v).params = s.params := rfl
@[simp] theorem State.writeWord_regs (r : Nat) (pos : Nat) (v : Word) : (s.writeWord r pos v).regs = s.regs.set r ((s.reg r).set pos (RegWord.ofWord v)) := rfl
@[simp] theorem State.writeWord_data (r : Nat) (pos : Nat) (v : Word) : (s.writeWord r pos v).data = s.data := rfl
@[simp] theorem State.writeWord_ctrl (r : Nat) (pos : Nat) (v : Word) : (s.writeWord r pos v).ctrl = s.ctrl := rfl
@[simp] theorem State.writeWord_declen (r : Nat) (pos : Nat) (v : Word) : (s.writeWord r pos v).declen = s.declen := rfl
@[simp] theorem State.writeWord_digits (r : Nat) (pos : Nat) (v : Word) : (s.writeWord r pos v).digits = s.digits := rfl
@[simp] theorem State.writeWord_pending (r : Nat) (pos : Nat) (v : Word) : (s.writeWord r pos v).pending = s.pending := rfl
@[simp] theorem State.writeWord_delay (r : Nat) (pos : Nat) (v : Word) : (s.writeWord r pos v).delay = s.delay := rfl
@[simp] theorem State.writeWord_draws (r : Nat) (pos : Nat) (v : Word) : (s.writeWord r pos v).draws = s.draws := rfl
@[simp] theorem State.writeWord_host (r : Nat) (pos : Nat) (v : Word) : (s.writeWord r pos v).host = s.host := rfl
@[simp] theorem State.writeWord_reads (r : Nat) (pos : Nat) (v : Word) : (s.writeWord r pos v).reads = s.reads := rfl
@[simp] theorem State.writeWord_busy (r : Nat) (pos : Nat) (v : Word) : (s.writeWord r pos v).status.busy = s.status.busy := rfl
@[simp] theorem State.writeWord_z (r : Nat) (pos : Nat) (v : Word) : (s.writeWord r pos v).status.z = s.status.z := rfl
@[simp] theorem State.writeWord_w (r : Nat) (pos : Nat) (v : Word) : (s.writeWord r pos v).status.w = s.status.w := rfl
@[simp] theorem State.writeWord_ovr (r : Nat) (pos : Nat) (v : Word) : (s.writeWord r pos v).status.ovr = s.status.ovr := rfl
@[simp] theorem State.writeWord_acc (r : Nat) (pos : Nat) (v : Word) : (s.writeWord r pos v).status.acc = s.status.acc := rfl
@[simp] theorem State.writeWord_err (r : Nat) (pos : Nat) (v : Word) : (s.writeWord r pos v).status.err = s.status.err := rfl
@[simp] theorem State.writeWord_errop (r : Nat) (pos : Nat) (v : Word) : (s.writeWord r pos v).status.errop = s.status.errop := rfl

/-! ### State.writeData -/

@[simp] theorem State.writeData_params (v : Word) : (s.writeData v).params = s.params := rfl
@[simp] theorem State.writeData_regs (v : Word) : (s.writeData v).regs = s.regs := rfl
@[simp] theorem State.writeData_data (v : Word) : (s.writeData v).data = v := rfl
@[simp] theorem State.writeData_ctrl (v : Word) : (s.writeData v).ctrl = s.ctrl := rfl
@[simp] theorem State.writeData_declen (v : Word) : (s.writeData v).declen = s.declen := rfl
@[simp] theorem State.writeData_digits (v : Word) : (s.writeData v).digits = s.digits := rfl
@[simp] theorem State.writeData_pending (v : Word) : (s.writeData v).pending = s.pending := rfl
@[simp] theorem State.writeData_delay (v : Word) : (s.writeData v).delay = s.delay := rfl
@[simp] theorem State.writeData_draws (v : Word) : (s.writeData v).draws = s.draws := rfl
@[simp] theorem State.writeData_host (v : Word) : (s.writeData v).host = s.host := rfl
@[simp] theorem State.writeData_reads (v : Word) : (s.writeData v).reads = s.reads := rfl
@[simp] theorem State.writeData_busy (v : Word) : (s.writeData v).status.busy = s.status.busy := rfl
@[simp] theorem State.writeData_z (v : Word) : (s.writeData v).status.z = s.status.z := rfl
@[simp] theorem State.writeData_w (v : Word) : (s.writeData v).status.w = s.status.w := rfl
@[simp] theorem State.writeData_ovr (v : Word) : (s.writeData v).status.ovr = s.status.ovr := rfl
@[simp] theorem State.writeData_acc (v : Word) : (s.writeData v).status.acc = s.status.acc := rfl
@[simp] theorem State.writeData_err (v : Word) : (s.writeData v).status.err = s.status.err := rfl
@[simp] theorem State.writeData_errop (v : Word) : (s.writeData v).status.errop = s.status.errop := rfl

/-! ### State.writeDigits -/

@[simp] theorem State.writeDigits_params (bs : List Byte) (len : Word) : (s.writeDigits bs len).params = s.params := rfl
@[simp] theorem State.writeDigits_regs (bs : List Byte) (len : Word) : (s.writeDigits bs len).regs = s.regs := rfl
@[simp] theorem State.writeDigits_data (bs : List Byte) (len : Word) : (s.writeDigits bs len).data = s.data := rfl
@[simp] theorem State.writeDigits_ctrl (bs : List Byte) (len : Word) : (s.writeDigits bs len).ctrl = s.ctrl := rfl
@[simp] theorem State.writeDigits_declen (bs : List Byte) (len : Word) : (s.writeDigits bs len).declen = len := rfl
@[simp] theorem State.writeDigits_digits (bs : List Byte) (len : Word) : (s.writeDigits bs len).digits = Memory.ofBytes 0 bs := rfl
@[simp] theorem State.writeDigits_pending (bs : List Byte) (len : Word) : (s.writeDigits bs len).pending = s.pending := rfl
@[simp] theorem State.writeDigits_delay (bs : List Byte) (len : Word) : (s.writeDigits bs len).delay = s.delay := rfl
@[simp] theorem State.writeDigits_draws (bs : List Byte) (len : Word) : (s.writeDigits bs len).draws = s.draws := rfl
@[simp] theorem State.writeDigits_host (bs : List Byte) (len : Word) : (s.writeDigits bs len).host = s.host := rfl
@[simp] theorem State.writeDigits_reads (bs : List Byte) (len : Word) : (s.writeDigits bs len).reads = s.reads := rfl
@[simp] theorem State.writeDigits_busy (bs : List Byte) (len : Word) : (s.writeDigits bs len).status.busy = s.status.busy := rfl
@[simp] theorem State.writeDigits_z (bs : List Byte) (len : Word) : (s.writeDigits bs len).status.z = s.status.z := rfl
@[simp] theorem State.writeDigits_w (bs : List Byte) (len : Word) : (s.writeDigits bs len).status.w = s.status.w := rfl
@[simp] theorem State.writeDigits_ovr (bs : List Byte) (len : Word) : (s.writeDigits bs len).status.ovr = s.status.ovr := rfl
@[simp] theorem State.writeDigits_acc (bs : List Byte) (len : Word) : (s.writeDigits bs len).status.acc = s.status.acc := rfl
@[simp] theorem State.writeDigits_err (bs : List Byte) (len : Word) : (s.writeDigits bs len).status.err = s.status.err := rfl
@[simp] theorem State.writeDigits_errop (bs : List Byte) (len : Word) : (s.writeDigits bs len).status.errop = s.status.errop := rfl

/-! ### State.setFlags -/

@[simp] theorem State.setFlags_params (ws : List Word) (b : Bool) : (s.setFlags ws b).params = s.params := rfl
@[simp] theorem State.setFlags_regs (ws : List Word) (b : Bool) : (s.setFlags ws b).regs = s.regs := rfl
@[simp] theorem State.setFlags_data (ws : List Word) (b : Bool) : (s.setFlags ws b).data = s.data := rfl
@[simp] theorem State.setFlags_ctrl (ws : List Word) (b : Bool) : (s.setFlags ws b).ctrl = s.ctrl := rfl
@[simp] theorem State.setFlags_declen (ws : List Word) (b : Bool) : (s.setFlags ws b).declen = s.declen := rfl
@[simp] theorem State.setFlags_digits (ws : List Word) (b : Bool) : (s.setFlags ws b).digits = s.digits := rfl
@[simp] theorem State.setFlags_pending (ws : List Word) (b : Bool) : (s.setFlags ws b).pending = s.pending := rfl
@[simp] theorem State.setFlags_delay (ws : List Word) (b : Bool) : (s.setFlags ws b).delay = s.delay := rfl
@[simp] theorem State.setFlags_draws (ws : List Word) (b : Bool) : (s.setFlags ws b).draws = s.draws := rfl
@[simp] theorem State.setFlags_host (ws : List Word) (b : Bool) : (s.setFlags ws b).host = s.host := rfl
@[simp] theorem State.setFlags_reads (ws : List Word) (b : Bool) : (s.setFlags ws b).reads = s.reads := rfl
@[simp] theorem State.setFlags_busy (ws : List Word) (b : Bool) : (s.setFlags ws b).status.busy = s.status.busy := rfl
@[simp] theorem State.setFlags_z (ws : List Word) (b : Bool) : (s.setFlags ws b).status.z = decide (val ws = 0) := rfl
@[simp] theorem State.setFlags_w (ws : List Word) (b : Bool) : (s.setFlags ws b).status.w = b := rfl
@[simp] theorem State.setFlags_ovr (ws : List Word) (b : Bool) : (s.setFlags ws b).status.ovr = s.status.ovr := rfl
@[simp] theorem State.setFlags_acc (ws : List Word) (b : Bool) : (s.setFlags ws b).status.acc = s.status.acc := rfl
@[simp] theorem State.setFlags_err (ws : List Word) (b : Bool) : (s.setFlags ws b).status.err = s.status.err := rfl
@[simp] theorem State.setFlags_errop (ws : List Word) (b : Bool) : (s.setFlags ws b).status.errop = s.status.errop := rfl

/-! ### State.finish -/

@[simp] theorem State.finish_params (rd : Nat) (ws : List Word) (b : Bool) : (s.finish rd ws b).params = s.params := rfl
@[simp] theorem State.finish_regs (rd : Nat) (ws : List Word) (b : Bool) : (s.finish rd ws b).regs = s.regs.set rd (ws.map RegWord.ofWord) := rfl
@[simp] theorem State.finish_data (rd : Nat) (ws : List Word) (b : Bool) : (s.finish rd ws b).data = s.data := rfl
@[simp] theorem State.finish_ctrl (rd : Nat) (ws : List Word) (b : Bool) : (s.finish rd ws b).ctrl = s.ctrl := rfl
@[simp] theorem State.finish_declen (rd : Nat) (ws : List Word) (b : Bool) : (s.finish rd ws b).declen = s.declen := rfl
@[simp] theorem State.finish_digits (rd : Nat) (ws : List Word) (b : Bool) : (s.finish rd ws b).digits = s.digits := rfl
@[simp] theorem State.finish_pending (rd : Nat) (ws : List Word) (b : Bool) : (s.finish rd ws b).pending = none := rfl
@[simp] theorem State.finish_delay (rd : Nat) (ws : List Word) (b : Bool) : (s.finish rd ws b).delay = 0 := rfl
@[simp] theorem State.finish_draws (rd : Nat) (ws : List Word) (b : Bool) : (s.finish rd ws b).draws = s.draws + 1 := rfl
@[simp] theorem State.finish_host (rd : Nat) (ws : List Word) (b : Bool) : (s.finish rd ws b).host = s.host := rfl
@[simp] theorem State.finish_reads (rd : Nat) (ws : List Word) (b : Bool) : (s.finish rd ws b).reads = s.reads := rfl
@[simp] theorem State.finish_busy (rd : Nat) (ws : List Word) (b : Bool) : (s.finish rd ws b).status.busy = false := rfl
@[simp] theorem State.finish_z (rd : Nat) (ws : List Word) (b : Bool) : (s.finish rd ws b).status.z = decide (val ws = 0) := rfl
@[simp] theorem State.finish_w (rd : Nat) (ws : List Word) (b : Bool) : (s.finish rd ws b).status.w = b := rfl
@[simp] theorem State.finish_ovr (rd : Nat) (ws : List Word) (b : Bool) : (s.finish rd ws b).status.ovr = s.status.ovr := rfl
@[simp] theorem State.finish_acc (rd : Nat) (ws : List Word) (b : Bool) : (s.finish rd ws b).status.acc = s.status.acc := rfl
@[simp] theorem State.finish_err (rd : Nat) (ws : List Word) (b : Bool) : (s.finish rd ws b).status.err = s.status.err := rfl
@[simp] theorem State.finish_errop (rd : Nat) (ws : List Word) (b : Bool) : (s.finish rd ws b).status.errop = s.status.errop := rfl

/-! ### State.setAcc -/

@[simp] theorem State.setAcc_params : s.setAcc.params = s.params := rfl
@[simp] theorem State.setAcc_regs : s.setAcc.regs = s.regs := rfl
@[simp] theorem State.setAcc_data : s.setAcc.data = s.data := rfl
@[simp] theorem State.setAcc_ctrl : s.setAcc.ctrl = s.ctrl := rfl
@[simp] theorem State.setAcc_declen : s.setAcc.declen = s.declen := rfl
@[simp] theorem State.setAcc_digits : s.setAcc.digits = s.digits := rfl
@[simp] theorem State.setAcc_pending : s.setAcc.pending = s.pending := rfl
@[simp] theorem State.setAcc_delay : s.setAcc.delay = s.delay := rfl
@[simp] theorem State.setAcc_draws : s.setAcc.draws = s.draws := rfl
@[simp] theorem State.setAcc_host : s.setAcc.host = s.host := rfl
@[simp] theorem State.setAcc_reads : s.setAcc.reads = s.reads := rfl
@[simp] theorem State.setAcc_busy : s.setAcc.status.busy = s.status.busy := rfl
@[simp] theorem State.setAcc_z : s.setAcc.status.z = s.status.z := rfl
@[simp] theorem State.setAcc_w : s.setAcc.status.w = s.status.w := rfl
@[simp] theorem State.setAcc_ovr : s.setAcc.status.ovr = s.status.ovr := rfl
@[simp] theorem State.setAcc_acc : s.setAcc.status.acc = true := rfl
@[simp] theorem State.setAcc_err : s.setAcc.status.err = s.status.err := rfl
@[simp] theorem State.setAcc_errop : s.setAcc.status.errop = s.status.errop := rfl

/-! ### State.setOvr -/

@[simp] theorem State.setOvr_params : s.setOvr.params = s.params := rfl
@[simp] theorem State.setOvr_regs : s.setOvr.regs = s.regs := rfl
@[simp] theorem State.setOvr_data : s.setOvr.data = s.data := rfl
@[simp] theorem State.setOvr_ctrl : s.setOvr.ctrl = s.ctrl := rfl
@[simp] theorem State.setOvr_declen : s.setOvr.declen = s.declen := rfl
@[simp] theorem State.setOvr_digits : s.setOvr.digits = s.digits := rfl
@[simp] theorem State.setOvr_pending : s.setOvr.pending = s.pending := rfl
@[simp] theorem State.setOvr_delay : s.setOvr.delay = s.delay := rfl
@[simp] theorem State.setOvr_draws : s.setOvr.draws = s.draws := rfl
@[simp] theorem State.setOvr_host : s.setOvr.host = s.host := rfl
@[simp] theorem State.setOvr_reads : s.setOvr.reads = s.reads := rfl
@[simp] theorem State.setOvr_busy : s.setOvr.status.busy = s.status.busy := rfl
@[simp] theorem State.setOvr_z : s.setOvr.status.z = s.status.z := rfl
@[simp] theorem State.setOvr_w : s.setOvr.status.w = s.status.w := rfl
@[simp] theorem State.setOvr_ovr : s.setOvr.status.ovr = true := rfl
@[simp] theorem State.setOvr_acc : s.setOvr.status.acc = s.status.acc := rfl
@[simp] theorem State.setOvr_err : s.setOvr.status.err = s.status.err := rfl
@[simp] theorem State.setOvr_errop : s.setOvr.status.errop = s.status.errop := rfl

/-! ### State.withPending -/

@[simp] theorem State.withPending_params (c : Cmd) : (s.withPending c).params = s.params := rfl
@[simp] theorem State.withPending_regs (c : Cmd) : (s.withPending c).regs = s.regs := rfl
@[simp] theorem State.withPending_data (c : Cmd) : (s.withPending c).data = s.data := rfl
@[simp] theorem State.withPending_ctrl (c : Cmd) : (s.withPending c).ctrl = s.ctrl := rfl
@[simp] theorem State.withPending_declen (c : Cmd) : (s.withPending c).declen = s.declen := rfl
@[simp] theorem State.withPending_digits (c : Cmd) : (s.withPending c).digits = s.digits := rfl
@[simp] theorem State.withPending_pending (c : Cmd) : (s.withPending c).pending = some c := rfl
@[simp] theorem State.withPending_delay (c : Cmd) : (s.withPending c).delay = 0 := rfl
@[simp] theorem State.withPending_draws (c : Cmd) : (s.withPending c).draws = s.draws := rfl
@[simp] theorem State.withPending_host (c : Cmd) : (s.withPending c).host = s.host := rfl
@[simp] theorem State.withPending_reads (c : Cmd) : (s.withPending c).reads = s.reads := rfl
@[simp] theorem State.withPending_busy (c : Cmd) : (s.withPending c).status.busy = true := rfl
@[simp] theorem State.withPending_z (c : Cmd) : (s.withPending c).status.z = s.status.z := rfl
@[simp] theorem State.withPending_w (c : Cmd) : (s.withPending c).status.w = s.status.w := rfl
@[simp] theorem State.withPending_ovr (c : Cmd) : (s.withPending c).status.ovr = s.status.ovr := rfl
@[simp] theorem State.withPending_acc (c : Cmd) : (s.withPending c).status.acc = s.status.acc := rfl
@[simp] theorem State.withPending_err (c : Cmd) : (s.withPending c).status.err = s.status.err := rfl
@[simp] theorem State.withPending_errop (c : Cmd) : (s.withPending c).status.errop = s.status.errop := rfl

end Sys2Proof.Machine
end

