-- ==== Sys2Proof/Laws/Ops.lean ====
section
/-! SUPPORT. The digit buffer as memory, and reading a register after it was written. -/

namespace Sys2Proof.Machine

open Sys2Proof

/-! ## The digit buffer -/

theorem memory_nil_wf : Memory.wf [] = true := rfl

theorem mem_ofBytes {c : Host.Cell} {a : Nat} {bs : List Byte} (h : c ∈ Memory.ofBytes a bs) :
    a ≤ c.1 ∧ c.1 < a + bs.length ∧ c.2 ∈ bs := by
  induction bs generalizing a with
  | nil => simp [Memory.ofBytes] at h
  | cons b bs ih =>
    rcases List.mem_cons.mp h with rfl | h
    · simp
    · obtain ⟨h1, h2, h3⟩ := ih h
      exact ⟨by omega, by simp only [List.length_cons]; omega, List.mem_cons_of_mem _ h3⟩

/-- Laying bytes out gives the canonical form. -/
theorem ofBytes_wf (a : Nat) (bs : List Byte) : Memory.wf (Memory.ofBytes a bs) = true := by
  rw [Memory.wf, decide_eq_true_eq]
  induction bs generalizing a with
  | nil => exact List.Pairwise.nil
  | cons b bs ih => exact List.Pairwise.cons (fun c hc => by have := mem_ofBytes hc; simp only; omega) (ih (a + 1))

/-- The byte at an address, of bytes laid out from `a` up. -/
theorem get?_ofBytes (a : Nat) (bs : List Byte) (i : Nat) :
    Memory.get? (Memory.ofBytes a bs) i = if a ≤ i then bs[i - a]? else none := by
  induction bs generalizing a with
  | nil => simp [Memory.ofBytes, Memory.get?]
  | cons b bs ih =>
    rw [Memory.ofBytes, Memory.get?]
    by_cases h : a = i
    · simp [h]
    · rw [if_neg h, ih]
      by_cases hle : a ≤ i
      · rw [if_pos hle, if_pos (by omega)]
        obtain ⟨k, hk⟩ : ∃ k, i - a = k + 1 := ⟨i - a - 1, by omega⟩
        rw [hk, show i - (a + 1) = k by omega, List.getElem?_cons_succ]
      · rw [if_neg hle, if_neg (by omega)]

theorem ofBytes_addresses (a : Nat) (bs : List Byte) :
    (Memory.ofBytes a bs).map (fun c => c.1) = List.range' a bs.length := by
  induction bs generalizing a with
  | nil => rfl
  | cons b bs ih => simp [Memory.ofBytes, List.range'_succ, ih]

theorem ofBytes_bytes (a : Nat) (bs : List Byte) : (Memory.ofBytes a bs).map (fun c => c.2) = bs := by
  induction bs generalizing a with
  | nil => rfl
  | cons b bs ih => simp [Memory.ofBytes, ih]

/-- The only operation that writes the digit buffer keeps the canonical form. -/
theorem writeDigits_wf (s : State) (bs : List Byte) (len : Word) : Memory.wf (s.writeDigits bs len).digits = true :=
  ofBytes_wf 0 bs

theorem reset_digits_wf (p : Params) : Memory.wf (State.resetOf p).digits = true := rfl

/-- The canonical form is part of the invariant. -/
theorem Inv.digits_wf {s : State} (h : s.Inv) : Memory.wf s.digits = true := by
  rcases h.digitBuffer with ⟨h, -⟩ | h
  · rw [h]; rfl
  · have hp : (s.digits.map fun c => c.1).Pairwise (· < ·) := by
      rw [h.addresses]; exact List.pairwise_lt_range
    rw [Memory.wf, decide_eq_true_eq]
    exact List.pairwise_map.mp hp

/-- An address that is not listed reads as nothing. -/
theorem get?_eq_none {m : Memory} {i : Nat} (h : i ∉ m.map fun c => c.1) : Memory.get? m i = none := by
  induction m with
  | nil => rfl
  | cons c m ih =>
    simp only [List.map_cons, List.mem_cons, not_or] at h
    rw [Memory.get?, if_neg (Ne.symm h.1), ih h.2]

/-! ## Register words -/

theorem read_ofWord (draw : Nat) (site : Config.Site) (v : Word) : (RegWord.ofWord v).read draw site = v := rfl

theorem read_written (draw : Nat) (site : Config.Site) (w : RegWord) (h : w.written = true) :
    w.read draw site = w.value := by simp [RegWord.read, h]

theorem length_readReg (s : State) (site : Nat → Config.Site) (r : Nat) :
    (s.readReg site r).length = (s.reg r).length := by simp [State.readReg]

theorem length_src1 (s : State) (r : Nat) : (s.src1 r).length = (s.reg r).length := length_readReg _ _ _

theorem length_src2 (s : State) (r : Nat) : (s.src2 r).length = (s.reg r).length := length_readReg _ _ _

/-- A register all of whose words have been written reads as those words, whatever the free values are. -/
theorem readReg_defined (s : State) (site : Nat → Config.Site) (r : Nat) (h : s.defined r) :
    s.readReg site r = s.regWords r := by
  rw [State.readReg, State.regWords]
  apply List.ext_getElem?
  intro i
  rw [List.getElem?_mapIdx, List.getElem?_map]
  cases hw : (s.reg r)[i]? with
  | none => rfl
  | some w => simp [read_written _ _ w (h w (List.mem_of_getElem? hw))]

/-- Writing all words of a register and reading its words back. -/
theorem reg_writeReg (s : State) (r : Nat) (ws : List Word) (h : r < s.regs.length) :
    (s.writeReg r ws).reg r = ws.map RegWord.ofWord := by
  simp [State.reg, List.getD, List.getElem?_set_self h]

theorem reg_writeReg_ne (s : State) (r q : Nat) (ws : List Word) (h : q ≠ r) :
    (s.writeReg r ws).reg q = s.reg q := by
  simp [State.reg, List.getD, List.getElem?_set_ne (Ne.symm h)]

theorem reg_writeWord (s : State) (r pos : Nat) (v : Word) (h : r < s.regs.length) :
    (s.writeWord r pos v).reg r = (s.reg r).set pos (RegWord.ofWord v) := by
  simp [State.reg, List.getD, List.getElem?_set_self h]

theorem reg_writeWord_ne (s : State) (r q pos : Nat) (v : Word) (h : q ≠ r) :
    (s.writeWord r pos v).reg q = s.reg q := by
  simp [State.reg, List.getD, List.getElem?_set_ne (Ne.symm h)]

theorem map_value_ofWord (ws : List Word) : (ws.map RegWord.ofWord).map RegWord.value = ws := by
  rw [List.map_map, show RegWord.value ∘ RegWord.ofWord = id from rfl, List.map_id]

/-- The register of a state only depends on its register file. -/
theorem reg_congr {s t : State} (h : t.regs = s.regs) (r : Nat) : t.reg r = s.reg r := by
  rw [State.reg, State.reg, h]

/-! ## What the invariant says of a register the block has -/

theorem Inv.reg_mem {s : State} (h : s.Inv) {r : Nat} (hr : r < s.params.nreg) : s.reg r ∈ s.regs := by
  have : r < s.regs.length := by rw [h.fileShape]; exact hr
  rw [State.reg, List.getD, List.getElem?_eq_getElem this]
  exact List.getElem_mem this

theorem Inv.length_reg {s : State} (h : s.Inv) {r : Nat} (hr : r < s.params.nreg) :
    (s.reg r).length = s.params.n := h.regShape _ (Inv.reg_mem h hr)

theorem Inv.lt_length {s : State} (h : s.Inv) {r : Nat} (hr : r < s.params.nreg) : r < s.regs.length := by
  rw [h.fileShape]; exact hr

/-- A source operand has N words. -/
theorem Inv.length_src1 {s : State} (h : s.Inv) {r : Nat} (hr : r < s.params.nreg) :
    (s.src1 r).length = s.params.n := by rw [Machine.length_src1, Inv.length_reg h hr]

theorem Inv.length_src2 {s : State} (h : s.Inv) {r : Nat} (hr : r < s.params.nreg) :
    (s.src2 r).length = s.params.n := by rw [Machine.length_src2, Inv.length_reg h hr]

theorem Inv.val1_lt {s : State} (h : s.Inv) {r : Nat} (hr : r < s.params.nreg) :
    s.val1 r < 2 ^ s.params.bits := by
  have := val_lt (s.src1 r)
  rwa [Inv.length_src1 h hr] at this

theorem Inv.val2_lt {s : State} (h : s.Inv) {r : Nat} (hr : r < s.params.nreg) :
    s.val2 r < 2 ^ s.params.bits := by
  have := val_lt (s.src2 r)
  rwa [Inv.length_src2 h hr] at this

theorem badRegs_eq_false (s : State) (rs : List Nat) :
    s.badRegs rs = false ↔ ∀ r ∈ rs, r < s.params.nreg := by
  induction rs with
  | nil => simp [State.badRegs]
  | cons r rs ih => simp [State.badRegs, State.badReg, ih]

theorem badRegs_eq_true (s : State) (rs : List Nat) :
    s.badRegs rs = true ↔ ∃ r ∈ rs, s.params.nreg ≤ r := by
  induction rs with
  | nil => simp [State.badRegs]
  | cons r rs ih => simp [State.badRegs, State.badReg, ih]

end Sys2Proof.Machine
end

