-- ==== Sys2Proof/Laws/Exec.lean ====
section
/-! SUPPORT. What the shared ends of the commands do (R42, R205), and that every command answers a next state. -/

namespace Sys2Proof.Machine

open Sys2Proof

/-- Completing a command touches nothing but BUSY, pending and the model's own latency and draw count. -/
theorem complete_completed (s : State) : Completed s s.complete :=
  ⟨rfl, rfl, rfl, rfl, rfl, rfl, rfl, rfl⟩

/-- Error entry (R205): all it does. -/
theorem raise_raised (s : State) (e : Error) (op : Byte) : Raised e op s (s.raise e op) :=
  ⟨⟨rfl, rfl, rfl, rfl, rfl, rfl, rfl, rfl⟩, rfl, rfl, ⟨rfl, rfl⟩, rfl, rfl, ⟨rfl, fun _ => rfl⟩⟩

/-- The successful end of a command with a result (R42): all it does. -/
theorem finish_wrote (s : State) (rd : Nat) (ws : List Word) (wrapped : Bool)
    (hrd : rd < s.regs.length) (hlen : ws.length = s.params.n) :
    WroteResult rd (val ws) (wrapped = true) s (s.finish rd ws wrapped) := by
  have hreg : (s.finish rd ws wrapped).reg rd = ws.map RegWord.ofWord :=
    (reg_congr rfl rd).trans (reg_writeReg s rd ws hrd)
  refine ⟨⟨rfl, rfl, rfl, rfl, rfl, rfl, rfl, rfl⟩, ⟨rfl, rfl⟩, ?_, ?_, ?_, ?_, ?_, ?_, rfl, ⟨rfl, fun _ => rfl⟩⟩
  · intro w hw
    rw [hreg] at hw
    obtain ⟨v, -, rfl⟩ := List.mem_map.mp hw
    rfl
  · rw [hreg, List.length_map, hlen]
  · rw [State.regWords, hreg, map_value_ofWord]
  · simp
  · simp
  · intro r hr
    exact (reg_congr rfl r).trans (reg_writeReg_ne s rd r ws hr)

/-- The end of a command whose wrapped result may be an error (R202, R203). -/
theorem finishOr_cases (s : State) (enable : Bool) (e : Error) (op : Op) (rd : Nat) (ws : List Word) (wrapped : Bool) :
    (enable = true ∧ wrapped = true ∧ s.finishOr enable e op rd ws wrapped = s.raise e op.code) ∨
    ((enable = false ∨ wrapped = false) ∧ s.finishOr enable e op rd ws wrapped = s.finish rd ws wrapped) := by
  rw [State.finishOr]
  cases enable <;> cases wrapped <;> simp

/-- The cases of executing a command: it raises one error, with its opcode, or writes its destinations and completes. -/
inductive ExecCase (i : Instr) (s : State) : State → Prop
  | raised (e : Error) (he : e ≠ .illegal) : ExecCase i s (s.raise e i.op.code)
  | result (rd : Nat) (ws : List Word) (b : Bool) (hi : resultDest i = some rd) (hrd : rd < s.params.nreg)
      (hlen : s.Inv → ws.length = s.params.n) : ExecCase i s (s.finish rd ws b)
  | zero (rd : Nat) (hi : i = .zero rd) (hrd : rd < s.params.nreg) :
      ExecCase i s (s.writeReg rd (List.replicate s.params.n 0#64)).complete
  | setw (rd pos : Nat) (hi : i = .setw rd pos) (hrd : rd < s.params.nreg) (hpos : pos < s.params.n) :
      ExecCase i s (s.writeWord rd pos s.data).complete
  | data (r : Nat) (v : Word) (hi : i = .len r ∨ ∃ pos, i = .getw r pos) :
      ExecCase i s (s.writeData v).complete
  | digits (r : Nat) (ds : List Nat) (hi : i = .dec r) (hr : r < s.params.nreg)
      (hds : ds = decDigits s.params.bits s.params.dlen (val (s.src1 r))) :
      ExecCase i s (s.writeDigits (ds.map asciiDigit) (BitVec.ofNat 64 (s.params.dlen - firstDigit ds))).complete

theorem execCase_finishOr {i : Instr} {s : State} (enable : Bool) {e : Error} (he : e ≠ .illegal) {rd : Nat}
    {ws : List Word} {b : Bool} (hi : resultDest i = some rd) (hrd : rd < s.params.nreg)
    (hlen : s.Inv → ws.length = s.params.n) :
    ExecCase i s (s.finishOr enable e i.op rd ws b) := by
  rcases finishOr_cases s enable e i.op rd ws b with ⟨-, -, h⟩ | ⟨-, h⟩
  · rw [h]; exact .raised e he
  · rw [h]; exact .result rd ws b hi hrd hlen

/-- Every command answers a next state, and it is one of these. -/
theorem exec_cases (i : Instr) (s : State) : ∃ t, exec i s = .next t ∧ ExecCase i s t := by
  have index : Error.index ≠ Error.illegal := by decide
  have hover : Error.overflow ≠ Error.illegal := by decide
  have hunder : Error.underflow ≠ Error.illegal := by decide
  cases i with
  | zero rd =>
    simp only [exec, execZero]
    split
    · exact ⟨_, rfl, .raised .index index⟩
    · rename_i h
      simp only [Bool.not_eq_true, badRegs_eq_false, List.mem_singleton, forall_eq] at h
      exact ⟨_, rfl, .zero rd rfl h⟩
  | setw rd pos =>
    simp only [exec, execSetw]
    split
    · exact ⟨_, rfl, .raised .index index⟩
    · split
      · exact ⟨_, rfl, .raised .index index⟩
      · rename_i h hp
        simp only [Bool.not_eq_true, badRegs_eq_false, List.mem_singleton, forall_eq] at h
        exact ⟨_, rfl, .setw rd pos rfl h (by simpa [State.badPos] using hp)⟩
  | getw rs1 pos =>
    simp only [exec, execGetw]
    split
    · exact ⟨_, rfl, .raised .index index⟩
    · split
      · exact ⟨_, rfl, .raised .index index⟩
      · exact ⟨_, rfl, .data rs1 _ (.inr ⟨pos, rfl⟩)⟩
  | len rs1 =>
    simp only [exec, execLen]
    split
    · exact ⟨_, rfl, .raised .index index⟩
    · exact ⟨_, rfl, .data rs1 _ (.inl rfl)⟩
  | shl rd rs1 n =>
    simp only [exec, execShl]
    split
    · exact ⟨_, rfl, .raised .index index⟩
    · split
      · exact ⟨_, rfl, .raised .index index⟩
      · rename_i h _
        simp only [Bool.not_eq_true, badRegs_eq_false, List.mem_cons, List.not_mem_nil, or_false, forall_eq_or_imp,
          forall_eq] at h
        exact ⟨_, rfl, execCase_finishOr _ hover rfl h.1 fun hI => by
          rw [length_shlWords, Inv.length_src1 hI h.2]⟩
  | shr rd rs1 n =>
    simp only [exec, execShr]
    split
    · exact ⟨_, rfl, .raised .index index⟩
    · split
      · exact ⟨_, rfl, .raised .index index⟩
      · rename_i h _
        simp only [Bool.not_eq_true, badRegs_eq_false, List.mem_cons, List.not_mem_nil, or_false, forall_eq_or_imp,
          forall_eq] at h
        exact ⟨_, rfl, .result rd _ _ rfl h.1 fun hI => by rw [length_shrWords, Inv.length_src1 hI h.2]⟩
  | add rd rs1 rs2 =>
    simp only [exec, execAdd]
    split
    · exact ⟨_, rfl, .raised .index index⟩
    · rename_i h
      simp only [Bool.not_eq_true, badRegs_eq_false, List.mem_cons, List.not_mem_nil, or_false, forall_eq_or_imp,
        forall_eq] at h
      exact ⟨_, rfl, execCase_finishOr _ hover rfl h.1 fun hI => by
        rw [length_addChain _ _ _ (by rw [Inv.length_src1 hI h.2.1, Inv.length_src2 hI h.2.2]),
          Inv.length_src1 hI h.2.1]⟩
  | sub rd rs1 rs2 =>
    simp only [exec, execSub]
    split
    · exact ⟨_, rfl, .raised .index index⟩
    · rename_i h
      simp only [Bool.not_eq_true, badRegs_eq_false, List.mem_cons, List.not_mem_nil, or_false, forall_eq_or_imp,
        forall_eq] at h
      exact ⟨_, rfl, execCase_finishOr _ hunder rfl h.1 fun hI => by
        rw [length_subChain _ _ _ (by rw [Inv.length_src1 hI h.2.1, Inv.length_src2 hI h.2.2]),
          Inv.length_src1 hI h.2.1]⟩
  | mul rd rs1 rs2 =>
    simp only [exec, execMul]
    split
    · exact ⟨_, rfl, .raised .index index⟩
    · rename_i h
      simp only [Bool.not_eq_true, badRegs_eq_false, List.mem_cons, List.not_mem_nil, or_false, forall_eq_or_imp,
        forall_eq] at h
      exact ⟨_, rfl, execCase_finishOr _ hover rfl h.1 fun _ => length_mulWords _ _ _⟩
  | dec rs1 =>
    simp only [exec, execDec]
    split
    · exact ⟨_, rfl, .raised .index index⟩
    · rename_i h
      simp only [Bool.not_eq_true, badRegs_eq_false, List.mem_singleton, forall_eq] at h
      exact ⟨_, rfl, .digits rs1 _ rfl h rfl⟩

end Sys2Proof.Machine
end

