-- ==== Sys2Proof/Laws/Step.lean ====
section
/-! SUPPORT. What a step can do, said once: the core executes a due command, or the host acts. -/

namespace Sys2Proof.Machine

open Sys2Proof

/-- The inversion of a step: an ILLEGAL command, a decoded one, or a step of the host. -/
theorem step_cases {s t : State} (h : step s = .next t) :
    s.status.err.toNat ≤ 4 ∧
    ((∃ c e, s.due = some c ∧ decode c = .error e ∧ t = s.raise .illegal (opField c)) ∨
     (∃ c i, s.due = some c ∧ decode c = .ok i ∧ exec i s = .next t) ∨
     (s.due = none ∧ t = s.tick)) := by
  rw [step] at h
  split at h
  · cases h
  · rename_i herr
    refine ⟨by simpa [State.errReserved] using herr, ?_⟩
    split at h
    · rename_i c hc
      rw [runCommand] at h
      split at h
      · rename_i i hi
        exact .inr (.inl ⟨c, i, hc, hi, h⟩)
      · rename_i e he
        exact .inl ⟨c, e, hc, he, by injection h with h; exact h.symm⟩
    · rename_i hc
      exact .inr (.inr ⟨hc, by injection h with h; exact h.symm⟩)

/-- A command is due exactly if it is pending and its latency has passed. -/
theorem due_eq_some (s : State) (c : Cmd) : s.due = some c ↔ s.delay = 0 ∧ s.pending = some c := by
  rw [State.due]
  split <;> simp_all

/-- Nothing is due exactly if no command is pending or its latency has not passed. -/
theorem due_eq_none (s : State) : s.due = none ↔ s.delay ≠ 0 ∨ s.pending = none := by
  rw [State.due]
  split <;> simp_all

/-- The step of a state with no reserved error code always answers a next state. -/
theorem step_next (s : State) (h : s.status.err.toNat ≤ 4) : ∃ t, step s = .next t := by
  have herr : s.errReserved = false := by simpa [State.errReserved] using h
  rw [step, herr]
  cases hd : s.due with
  | none => exact ⟨_, rfl⟩
  | some c =>
    simp only [runCommand]
    cases hc : decode c with
    | error e => exact ⟨_, rfl⟩
    | ok i =>
      obtain ⟨t, h, -⟩ := exec_cases i s
      exact ⟨t, h⟩

/-! ## Host actions -/

/-- A host read changes the recorded replies and the draw count, and ACC where it is not supported (R53, R54, R57). -/
theorem hostRead_eq (s : State) (off : Offset) (width : Width) :
    s.hostRead off width =
      { s with
        status := { s.status with acc := s.status.acc || !readSupported off width }
        reads := s.replyTo off width :: s.reads
        draws := s.draws + 1 } := by
  rw [State.hostRead]
  cases readSupported off width <;> simp [State.setAcc]

/-- A CMD write (R55): dropped, or accepted. -/
theorem writeCmd_cases (s : State) (v : Word) :
    ((s.status.busy = true ∨ s.status.err ≠ 0#4) ∧ s.writeCmd v = s.setOvr) ∨
    (s.status.busy = false ∧ s.status.err = 0#4 ∧
      s.writeCmd v =
        { s with
          pending := some (v.setWidth 32)
          status := { s.status with busy := true }
          delay := Config.lat s.draws (v.setWidth 32)
          draws := s.draws + 1 }) := by
  rw [State.writeCmd]
  split
  · rename_i h; exact .inl ⟨.inl h, rfl⟩
  · split
    · rename_i h; exact .inl ⟨.inr h, rfl⟩
    · rename_i h1 h2
      exact .inr ⟨by simpa using h1, by simpa using h2, rfl⟩

/-- A host write: an unsupported one, or the write of one register. -/
theorem hostWrite_cases (s : State) (off : Offset) (width : Width) (v : Word) :
    (writeSupported off width = false ∧ s.hostWrite off width v = s.setAcc) ∨
    (writeSupported off width = true ∧
      ((regionOf off = .cmd ∧ s.hostWrite off width v = s.writeCmd v) ∨
       (regionOf off = .data ∧ s.hostWrite off width v = s.hostWriteData v) ∨
       (regionOf off = .status ∧ s.hostWrite off width v = s.writeStatus v) ∨
       (regionOf off = .ctrl ∧ s.hostWrite off width v = s.writeCtrl v) ∨
       ((regionOf off = .declen ∨ regionOf off = .param) ∧ s.hostWrite off width v = s))) := by
  rw [State.hostWrite]
  cases hw : writeSupported off width with
  | false => exact .inl ⟨rfl, rfl⟩
  | true =>
    rw [writeSupported] at hw
    cases hr : regionOf off with
    | cmd => simp
    | data => simp
    | status => simp
    | ctrl => simp
    | declen => simp
    | param => simp
    | unmapped => simp [hr] at hw
    | digits i => simp [hr] at hw

/-- What a step of the host can do. -/
theorem hostStep_cases (s : State) :
    (s.host = [] ∧ s.hostStep = s) ∨
    (∃ off w rest, s.host = .read off w :: rest ∧ s.hostStep = State.hostRead { s with host := rest } off w) ∨
    (∃ off w v rest, s.host = .write off w v :: rest ∧ s.hostStep = State.hostWrite { s with host := rest } off w v) ∨
    (∃ rest, s.host = .waitIdle :: rest ∧
      ((s.status.busy = true ∧ s.hostStep = s) ∨ (s.status.busy = false ∧ s.hostStep = { s with host := rest }))) ∨
    (∃ rest, s.host = .reset :: rest ∧ s.hostStep = State.resetInput { s with host := rest }) := by
  rw [State.hostStep]
  cases hh : s.host with
  | nil => exact .inl ⟨rfl, rfl⟩
  | cons a rest =>
    right
    cases a with
    | read off w => exact .inl ⟨off, w, rest, rfl, rfl⟩
    | write off w v => exact .inr (.inl ⟨off, w, v, rest, rfl, rfl⟩)
    | waitIdle =>
      refine .inr (.inr (.inl ⟨rest, rfl, ?_⟩))
      cases hb : s.status.busy <;> simp [State.perform, hb]
    | reset => exact .inr (.inr (.inr ⟨rest, rfl, rfl⟩))

end Sys2Proof.Machine
end

