-- ==== Sys2Proof/Laws/HostPort.lean ====
section
/-! SUPPORT. The host window (20_memory.md): where an offset lies, what a write of each register does, the registers as
numbers, the bytes of the digit window, and what a step of the host leaves alone. -/

namespace Sys2Proof.Machine

open Sys2Proof

/-! ## Offsets -/

/-- Where an offset lies (R51): a register, the unmapped gap, or the digit window. -/
theorem regionOf_cases (off : Offset) :
    ((regionOf off = .cmd ∨ regionOf off = .data ∨ regionOf off = .status ∨ regionOf off = .ctrl ∨
      regionOf off = .declen ∨ regionOf off = .param) ∧ off.toNat < 0x30) ∨
    (regionOf off = .unmapped ∧ 0x30 ≤ off.toNat ∧ off.toNat < 0x10000) ∨
    (regionOf off = .digits (off.toNat - 0x10000) ∧ 0x10000 ≤ off.toNat) := by
  unfold regionOf
  dsimp only
  split; · left; simp; omega
  split; · left; simp; omega
  split; · left; simp; omega
  split; · left; simp; omega
  split; · left; simp; omega
  split; · left; simp; omega
  split
  · right; left; simp; omega
  · right; right; simp; omega

/-- The offset is one of the six registers'. -/
def RegisterOffset (off : Offset) : Prop :=
  off = offCmd ∨ off = offData ∨ off = offStatus ∨ off = offCtrl ∨ off = offDeclen ∨ off = offParam

/-- A supported write is a 64-bit write at a register's offset (R53). -/
theorem writeSupported_iff (off : Offset) (width : Width) :
    writeSupported off width = true ↔ width = .b64 ∧ RegisterOffset off := by
  constructor
  · intro h
    have hr : off.toNat < 0x30 ∧ aligned64 off width = true := by
      rcases regionOf_cases off with ⟨h1, h2⟩ | ⟨h1, -⟩ | ⟨h1, -⟩
      · rcases h1 with h1 | h1 | h1 | h1 | h1 | h1 <;> exact ⟨h2, by simpa [writeSupported, h1] using h⟩
      · simp [writeSupported, h1] at h
      · simp [writeSupported, h1] at h
    obtain ⟨h1, h2⟩ := hr
    simp only [aligned64, Bool.and_eq_true, beq_iff_eq] at h2
    refine ⟨h2.1, ?_⟩
    simp only [RegisterOffset, ← BitVec.toNat_inj]
    simp only [offCmd, offData, offStatus, offCtrl, offDeclen, offParam, BitVec.toNat_ofNat]
    omega
  · rintro ⟨rfl, rfl | rfl | rfl | rfl | rfl | rfl⟩ <;> decide

theorem readSupported_register (off : Offset) (h : RegisterOffset off) : readSupported off .b64 = true := by
  rcases h with rfl | rfl | rfl | rfl | rfl | rfl <;> decide

theorem regionOf_registers : regionOf offCmd = .cmd ∧ regionOf offData = .data ∧ regionOf offStatus = .status ∧
    regionOf offCtrl = .ctrl ∧ regionOf offDeclen = .declen ∧ regionOf offParam = .param := by decide

/-- An unsupported write sets ACC and does nothing else (R53, R54). -/
theorem hostWrite_unsupported {s : State} {off : Offset} {width : Width} {v : Word}
    (h : writeSupported off width = false) : s.hostWrite off width v = s.setAcc := by
  rw [State.hostWrite, h]; rfl

/-- A supported read changes the recorded replies and the draw count only (R57). -/
theorem hostRead_supported {s : State} {off : Offset} {width : Width} (h : readSupported off width = true) :
    s.hostRead off width = { s with reads := s.replyTo off width :: s.reads, draws := s.draws + 1 } := by
  rw [hostRead_eq, h]; simp

/-- An unsupported read replies 0 and sets ACC (R53, R54). -/
theorem hostRead_unsupported {s : State} {off : Offset} {width : Width} (h : readSupported off width = false) :
    s.replyTo off width = 0#64 ∧ (s.hostRead off width).status = { s.status with acc := true } := by
  rw [hostRead_eq, h]; simp [State.replyTo, h]

/-! ## The registers, one by one -/

section
variable (s : State) (v : Word)

theorem hostWrite_cmd : s.hostWrite offCmd .b64 v = s.writeCmd v := by
  rw [State.hostWrite, if_pos (by decide), regionOf_registers.1]

theorem hostWrite_data : s.hostWrite offData .b64 v = s.hostWriteData v := by
  rw [State.hostWrite, if_pos (by decide), regionOf_registers.2.1]

theorem hostWrite_status : s.hostWrite offStatus .b64 v = s.writeStatus v := by
  rw [State.hostWrite, if_pos (by decide), regionOf_registers.2.2.1]

theorem hostWrite_ctrl : s.hostWrite offCtrl .b64 v = s.writeCtrl v := by
  rw [State.hostWrite, if_pos (by decide), regionOf_registers.2.2.2.1]

theorem hostWrite_declen : s.hostWrite offDeclen .b64 v = s := by
  rw [State.hostWrite, if_pos (by decide), regionOf_registers.2.2.2.2.1]

theorem hostWrite_param : s.hostWrite offParam .b64 v = s := by
  rw [State.hostWrite, if_pos (by decide), regionOf_registers.2.2.2.2.2]

theorem replyTo_cmd : s.replyTo offCmd .b64 = 0#64 := by
  rw [State.replyTo, if_pos (by decide), State.readReply, regionOf_registers.1]

theorem replyTo_data :
    s.replyTo offData .b64 = if s.status.busy then Config.uninit s.draws .bus else s.data := by
  rw [State.replyTo, if_pos (by decide), State.readReply, regionOf_registers.2.1]; rfl

theorem replyTo_status : s.replyTo offStatus .b64 = s.status.word := by
  rw [State.replyTo, if_pos (by decide), State.readReply, regionOf_registers.2.2.1]

theorem replyTo_ctrl : s.replyTo offCtrl .b64 = s.ctrl.word := by
  rw [State.replyTo, if_pos (by decide), State.readReply, regionOf_registers.2.2.2.1]

theorem replyTo_declen :
    s.replyTo offDeclen .b64 = if s.status.busy then Config.uninit s.draws .bus else s.declen := by
  rw [State.replyTo, if_pos (by decide), State.readReply, regionOf_registers.2.2.2.2.1]; rfl

theorem replyTo_param : s.replyTo offParam .b64 = Params.word s.params := by
  rw [State.replyTo, if_pos (by decide), State.readReply, regionOf_registers.2.2.2.2.2]

/-- A STATUS write (R24, R31) in one piece. -/
theorem writeStatus_eq : s.writeStatus v = { s with status := { s.status with
    ovr := s.status.ovr && !v.getLsbD 3
    acc := s.status.acc && !v.getLsbD 4
    err := if v.getLsbD 15 then 0#4 else s.status.err
    errop := if v.getLsbD 15 then 0#8 else s.status.errop } } := by
  rw [State.writeStatus]; split <;> rfl

end

/-! ## The registers as numbers -/

/-- STATUS is the sum of its fields at their places (R24). -/
theorem statusWord_toNat (st : Status) : st.word.toNat =
    bitAt st.busy 0 + bitAt st.z 1 + bitAt st.w 2 + bitAt st.ovr 3 + bitAt st.acc 4
      + st.err.toNat * 2 ^ 8 + st.errop.toNat * 2 ^ 16 := by
  have h1 := st.err.isLt
  have h2 := st.errop.isLt
  rw [Status.word, BitVec.toNat_ofNat, Nat.mod_eq_of_lt]
  cases st.busy <;> cases st.z <;> cases st.w <;> cases st.ovr <;> cases st.acc <;> simp [bitAt] <;> omega

theorem ctrlWord_toNat (c : Ctrl) : c.word.toNat = (if c.ofe then 1 else 0) + 2 * (if c.ufe then 1 else 0) := by
  rcases c with ⟨_ | _, _ | _⟩ <;> decide

theorem paramsWord_toNat (p : Params) (h : p.legal = true) :
    (Params.word p).toNat = p.n + p.nreg * 2 ^ 16 + 64 * 2 ^ 24 + p.dlen * 2 ^ 32 := by
  have hd := dlen_lt p h
  simp only [Params.legal, Bool.and_eq_true, decide_eq_true_eq] at h
  rw [Params.word, BitVec.toNat_ofNat]
  omega

/-! ## The digit window -/

theorem offDigit_toNat {i : Nat} (h : i < 0x10000) : (offDigit i).toNat = 0x10000 + i := by
  rw [offDigit, BitVec.toNat_ofNat]
  omega

theorem regionOf_offDigit {i : Nat} (h : i < 0x10000) : regionOf (offDigit i) = .digits i := by
  have hn := offDigit_toNat h
  rcases regionOf_cases (offDigit i) with ⟨-, a⟩ | ⟨-, -, b⟩ | ⟨a, -⟩
  · omega
  · omega
  · rw [a, hn, Nat.add_sub_cancel_left]

/-- An 8-bit read of the digit window (R52, R54, R58). -/
theorem replyTo_digit (s : State) {i : Nat} (h : i < 0x10000) : s.replyTo (offDigit i) .b8 =
    if s.status.busy then Config.uninit s.draws .bus &&& 0xFF#64 else BitVec.ofNat 64 (s.digitByte i).toNat := by
  have hs : readSupported (offDigit i) .b8 = true := by rw [readSupported, regionOf_offDigit h]; rfl
  rw [State.replyTo, hs, State.readReply, regionOf_offDigit h]; rfl

/-- An aligned 64-bit read of the digit window (R52, R54, R58, R61). -/
theorem replyTo_digits (s : State) {i : Nat} (h : i < 0x10000) (h8 : i % 8 = 0) : s.replyTo (offDigit i) .b64 =
    if s.status.busy then Config.uninit s.draws .bus else BitVec.ofNat 64 (s.digitsLE 8 i) := by
  have hs : readSupported (offDigit i) .b64 = true := by
    have h0 : (0x10000 + i) % 8 = 0 := by omega
    rw [readSupported, regionOf_offDigit h]
    simp only [aligned64, offDigit_toNat h, h0]
    rfl
  rw [State.replyTo, hs, State.readReply, regionOf_offDigit h]; rfl

theorem digitsLE_lt (s : State) (k i : Nat) : s.digitsLE k i < 2 ^ (8 * k) := by
  induction k generalizing i with
  | zero => simp [State.digitsLE]
  | succ k ih =>
    have := ih (i + 1)
    have hb := (s.digitByte i).isLt
    rw [State.digitsLE, Nat.mul_add, pow_add]
    generalize 2 ^ (8 * k) = p at *
    omega

/-- Byte `j` of a wide read of the digit window is the byte at the `j`-th place after its start (R61). -/
theorem digitsLE_byte (s : State) (k i j : Nat) (hj : j < k) :
    s.digitsLE k i / 2 ^ (8 * j) % 2 ^ 8 = (s.digitByte (i + j)).toNat := by
  induction k generalizing i j with
  | zero => omega
  | succ k ih =>
    have hb := (s.digitByte i).isLt
    rw [State.digitsLE]
    cases j with
    | zero => simp; omega
    | succ j =>
      have ih := ih (i + 1) j (by omega)
      have e : ((s.digitByte i).toNat + 2 ^ 8 * s.digitsLE k (i + 1)) / 2 ^ 8 = s.digitsLE k (i + 1) := by
        generalize s.digitsLE k (i + 1) = y
        generalize (s.digitByte i).toNat = x at *
        omega
      rw [show 8 * (j + 1) = 8 + 8 * j by omega, pow_add, ← Nat.div_div_eq_div_mul, e, ih,
        show i + 1 + j = i + (j + 1) by omega]

/-- Once a DEC has written the buffer, its bytes are listed. -/
theorem DigitsWritten.get? {s : State} (h : s.DigitsWritten) {i : Nat} (hi : i < s.params.dlen) :
    ∃ b, Memory.get? s.digits i = some b := by
  have hm : i ∈ s.digits.map (fun c => c.1) := by rw [h.addresses]; simpa using hi
  clear h hi
  generalize s.digits = m at *
  induction m with
  | nil => simp at hm
  | cons c m ih =>
    rw [Memory.get?]
    split
    · exact ⟨_, rfl⟩
    · rename_i h
      simp only [List.map_cons, List.mem_cons] at hm
      exact ih (hm.resolve_left (Ne.symm h))

/-- Once a DEC has written the buffer, a byte of the window does not depend on the draw. -/
theorem DigitsWritten.digitByte_congr {s t : State} (h : s.DigitsWritten) (h1 : t.digits = s.digits)
    (h2 : t.params = s.params) (i : Nat) : t.digitByte i = s.digitByte i := by
  rw [State.digitByte, State.digitByte, h1, h2]
  split
  · rename_i hi
    obtain ⟨b, hb⟩ := DigitsWritten.get? h hi
    rw [hb]
  · rfl

theorem DigitsWritten.digitsLE_congr {s t : State} (h : s.DigitsWritten) (h1 : t.digits = s.digits)
    (h2 : t.params = s.params) (k i : Nat) : t.digitsLE k i = s.digitsLE k i := by
  induction k generalizing i with
  | zero => rfl
  | succ k ih => rw [State.digitsLE, State.digitsLE, ih, DigitsWritten.digitByte_congr h h1 h2]

/-! ## What a step of the host leaves alone -/

/-- A write of a register touches no block register, no flag, no digit, no parameter; DATA only as the DATA write (R42, R55,
R56). -/
theorem hostWrite_frame (s : State) (off : Offset) (v : Word) (h : RegisterOffset off) :
    (s.hostWrite off .b64 v).regs = s.regs ∧ (s.hostWrite off .b64 v).params = s.params ∧
    sameFlags s (s.hostWrite off .b64 v) ∧ (s.hostWrite off .b64 v).digits = s.digits ∧
    (s.hostWrite off .b64 v).declen = s.declen ∧
    ((s.hostWrite off .b64 v).data = s.data ∨
      (off = offData ∧ s.status.busy = false ∧ (s.hostWrite off .b64 v).data = v)) := by
  rcases h with rfl | rfl | rfl | rfl | rfl | rfl
  · rw [hostWrite_cmd, State.writeCmd]
    (repeat' split) <;> exact ⟨rfl, rfl, ⟨rfl, rfl⟩, rfl, rfl, .inl rfl⟩
  · rw [hostWrite_data, State.hostWriteData]
    split
    · exact ⟨rfl, rfl, ⟨rfl, rfl⟩, rfl, rfl, .inl rfl⟩
    · rename_i hb
      exact ⟨rfl, rfl, ⟨rfl, rfl⟩, rfl, rfl, .inr ⟨rfl, by simpa using hb, rfl⟩⟩
  · rw [hostWrite_status, writeStatus_eq]; exact ⟨rfl, rfl, ⟨rfl, rfl⟩, rfl, rfl, .inl rfl⟩
  · rw [hostWrite_ctrl, State.writeCtrl]
    split <;> exact ⟨rfl, rfl, ⟨rfl, rfl⟩, rfl, rfl, .inl rfl⟩
  · rw [hostWrite_declen]; exact ⟨rfl, rfl, ⟨rfl, rfl⟩, rfl, rfl, .inl rfl⟩
  · rw [hostWrite_param]; exact ⟨rfl, rfl, ⟨rfl, rfl⟩, rfl, rfl, .inl rfl⟩

/-- A step that is not the core's: the reset input, the write of a register, or a step that touches only ACC and the model's
own fields. -/
theorem tick_cases (s : State) (hd : s.due = none) :
    (s.acting = some .reset ∧ ∃ rest, s.tick = State.resetInput { s with delay := s.delay - 1, host := rest }) ∨
    (∃ off v, s.acting = some (.write off .b64 v) ∧ RegisterOffset off ∧
      ∃ rest, s.tick = State.hostWrite { s with delay := s.delay - 1, host := rest } off .b64 v) ∨
    (∃ acc delay draws host reads, s.tick = { s with
      status := { s.status with acc := acc }, delay := delay, draws := draws, host := host, reads := reads }) := by
  have hact : ∀ a rest, s.host = a :: rest → s.acting = some a := by
    intro a rest h
    simp [State.acting, hd, h]
  rw [State.tick]
  rcases hostStep_cases { s with delay := s.delay - 1 } with ⟨-, h⟩ | ⟨off, w, rest, -, h⟩ | ⟨off, w, v, rest, hh, h⟩ |
    ⟨rest, -, ⟨-, h⟩ | ⟨-, h⟩⟩ | ⟨rest, hh, h⟩ <;> rw [h]
  · exact .inr (.inr ⟨_, _, _, _, _, rfl⟩)
  · rw [hostRead_eq]; exact .inr (.inr ⟨_, _, _, _, _, rfl⟩)
  · right
    cases hs : writeSupported off w with
    | false => rw [hostWrite_unsupported hs]; exact .inr ⟨_, _, _, _, _, rfl⟩
    | true =>
      obtain ⟨rfl, hc⟩ := (writeSupported_iff off w).mp hs
      exact .inl ⟨off, v, hact _ _ hh, hc, rest, rfl⟩
  · exact .inr (.inr ⟨_, _, _, _, _, rfl⟩)
  · exact .inr (.inr ⟨_, _, _, _, _, rfl⟩)
  · exact .inl ⟨hact _ _ hh, rest, rfl⟩

end Sys2Proof.Machine
end

