-- ==== Sys2Proof/Laws/PerInstr.lean ====
section
/-! SUPPORT. The word of every well-formed command fits the match and mask of its row (R85, R86, R89), one lemma per command. -/

namespace Sys2Proof.Laws.RowFits

open Sys2Proof

/-- The encoded word of a well-formed command fits its row. -/
def Statement (i : Instr) : Prop := i.wellFormed = true → i.op.fits (encode i) = true

/-- Fields in their ranges with the unused ones 0 make a word that fits the row. -/
theorem fits_of_fields (o : Op) (rd rs1 rs2 imm : Nat) (h1 : rd < 16) (h2 : rs1 < 16) (h3 : rs2 < 16) (h4 : imm < 4096)
    (hu : unusedZero (enc o.code rd rs1 rs2 imm) o) : o.fits (enc o.code rd rs1 rs2 imm) = true :=
  (fits_iff _ _).mpr ⟨(fields_enc o.code rd rs1 rs2 imm h1 h2 h3 h4).1, hu⟩

theorem zero (rd : Nat) : Statement (.zero rd) := by
  intro h
  simp only [Instr.wellFormed, fitsReg, decide_eq_true_eq] at h
  obtain ⟨-, -, h2, h3, h4⟩ := fields_enc Op.zero.code rd 0 0 0 h (by decide) (by decide) (by decide)
  exact fits_of_fields .zero rd 0 0 0 h (by decide) (by decide) (by decide) ⟨h2, h3, h4⟩

theorem setw (rd pos : Nat) : Statement (.setw rd pos) := by
  intro h
  simp only [Instr.wellFormed, fitsReg, fitsImm, Bool.and_eq_true, decide_eq_true_eq] at h
  obtain ⟨-, -, h2, h3, -⟩ := fields_enc Op.setw.code rd 0 0 pos h.1 (by decide) (by decide) h.2
  exact fits_of_fields .setw rd 0 0 pos h.1 (by decide) (by decide) h.2 ⟨h2, h3⟩

theorem getw (rs1 pos : Nat) : Statement (.getw rs1 pos) := by
  intro h
  simp only [Instr.wellFormed, fitsReg, fitsImm, Bool.and_eq_true, decide_eq_true_eq] at h
  obtain ⟨-, h1, -, h3, -⟩ := fields_enc Op.getw.code 0 rs1 0 pos (by decide) h.1 (by decide) h.2
  exact fits_of_fields .getw 0 rs1 0 pos (by decide) h.1 (by decide) h.2 ⟨h1, h3⟩

theorem len (rs1 : Nat) : Statement (.len rs1) := by
  intro h
  simp only [Instr.wellFormed, fitsReg, decide_eq_true_eq] at h
  obtain ⟨-, h1, -, h3, h4⟩ := fields_enc Op.len.code 0 rs1 0 0 (by decide) h (by decide) (by decide)
  exact fits_of_fields .len 0 rs1 0 0 (by decide) h (by decide) (by decide) ⟨h1, h3, h4⟩

theorem shl (rd rs1 n : Nat) : Statement (.shl rd rs1 n) := by
  intro h
  simp only [Instr.wellFormed, fitsReg, fitsImm, Bool.and_eq_true, decide_eq_true_eq] at h
  obtain ⟨-, -, -, h3, -⟩ := fields_enc Op.shl.code rd rs1 0 n h.1.1 h.1.2 (by decide) h.2
  exact fits_of_fields .shl rd rs1 0 n h.1.1 h.1.2 (by decide) h.2 h3

theorem shr (rd rs1 n : Nat) : Statement (.shr rd rs1 n) := by
  intro h
  simp only [Instr.wellFormed, fitsReg, fitsImm, Bool.and_eq_true, decide_eq_true_eq] at h
  obtain ⟨-, -, -, h3, -⟩ := fields_enc Op.shr.code rd rs1 0 n h.1.1 h.1.2 (by decide) h.2
  exact fits_of_fields .shr rd rs1 0 n h.1.1 h.1.2 (by decide) h.2 h3

theorem add (rd rs1 rs2 : Nat) : Statement (.add rd rs1 rs2) := by
  intro h
  simp only [Instr.wellFormed, fitsReg, Bool.and_eq_true, decide_eq_true_eq] at h
  obtain ⟨-, -, -, -, h4⟩ := fields_enc Op.add.code rd rs1 rs2 0 h.1.1 h.1.2 h.2 (by decide)
  exact fits_of_fields .add rd rs1 rs2 0 h.1.1 h.1.2 h.2 (by decide) h4

theorem sub (rd rs1 rs2 : Nat) : Statement (.sub rd rs1 rs2) := by
  intro h
  simp only [Instr.wellFormed, fitsReg, Bool.and_eq_true, decide_eq_true_eq] at h
  obtain ⟨-, -, -, -, h4⟩ := fields_enc Op.sub.code rd rs1 rs2 0 h.1.1 h.1.2 h.2 (by decide)
  exact fits_of_fields .sub rd rs1 rs2 0 h.1.1 h.1.2 h.2 (by decide) h4

theorem mul (rd rs1 rs2 : Nat) : Statement (.mul rd rs1 rs2) := by
  intro h
  simp only [Instr.wellFormed, fitsReg, Bool.and_eq_true, decide_eq_true_eq] at h
  obtain ⟨-, -, -, -, h4⟩ := fields_enc Op.mul.code rd rs1 rs2 0 h.1.1 h.1.2 h.2 (by decide)
  exact fits_of_fields .mul rd rs1 rs2 0 h.1.1 h.1.2 h.2 (by decide) h4

theorem dec (rs1 : Nat) : Statement (.dec rs1) := by
  intro h
  simp only [Instr.wellFormed, fitsReg, decide_eq_true_eq] at h
  obtain ⟨-, h1, -, h3, h4⟩ := fields_enc Op.dec.code 0 rs1 0 0 (by decide) h (by decide) (by decide)
  exact fits_of_fields .dec 0 rs1 0 0 (by decide) h (by decide) (by decide) ⟨h1, h3, h4⟩

end Sys2Proof.Laws.RowFits
end

