-- ==== Sys2Proof/Tests/Slice0.lean ====
section
/-! SUPPORT. Tests of the model against numbers that the spec gives (95_test_vectors.md, and the tables and examples of other
files), and for each statement with hypotheses a state and operands that meet them. -/

namespace Sys2Proof.Tests

open Sys2Proof
open Sys2Proof.Machine

/-! ## Well-formedness: each check refuses an ill-formed command (R82) -/

theorem test_wellFormed_zero_rd : (Instr.zero 16).wellFormed = false := by decide
theorem test_wellFormed_setw_rd : (Instr.setw 16 0).wellFormed = false := by decide
theorem test_wellFormed_setw_pos : (Instr.setw 15 4096).wellFormed = false := by decide
theorem test_wellFormed_getw_rs1 : (Instr.getw 16 0).wellFormed = false := by decide
theorem test_wellFormed_getw_pos : (Instr.getw 0 4096).wellFormed = false := by decide
theorem test_wellFormed_len_rs1 : (Instr.len 16).wellFormed = false := by decide
theorem test_wellFormed_shl_fields : (Instr.shl 16 0 0).wellFormed = false ∧ (Instr.shl 0 16 0).wellFormed = false ∧
    (Instr.shl 0 0 4096).wellFormed = false := by decide
theorem test_wellFormed_shr_fields : (Instr.shr 16 0 0).wellFormed = false ∧ (Instr.shr 0 16 0).wellFormed = false ∧
    (Instr.shr 0 0 4096).wellFormed = false := by decide
theorem test_wellFormed_add_fields : (Instr.add 16 0 0).wellFormed = false ∧ (Instr.add 0 16 0).wellFormed = false ∧
    (Instr.add 0 0 16).wellFormed = false := by decide
theorem test_wellFormed_sub_fields : (Instr.sub 16 0 0).wellFormed = false ∧ (Instr.sub 0 16 0).wellFormed = false ∧
    (Instr.sub 0 0 16).wellFormed = false := by decide
theorem test_wellFormed_mul_fields : (Instr.mul 16 0 0).wellFormed = false ∧ (Instr.mul 0 16 0).wellFormed = false ∧
    (Instr.mul 0 0 16).wellFormed = false := by decide
theorem test_wellFormed_dec_rs1 : (Instr.dec 16).wellFormed = false := by decide

/-! ## Decoding: words written out in 95_test_vectors.md section 2 and 30_encoding.md (R85, R86, R89) -/

theorem test_decode_zero : decode 0x01300000#32 = .ok (.zero 3) := by decide
theorem test_decode_setw : decode 0x0230000A#32 = .ok (.setw 3 10) := by decide
theorem test_decode_getw : decode 0x03030001#32 = .ok (.getw 3 1) := by decide
theorem test_decode_len : decode 0x04040000#32 = .ok (.len 4) := by decide
theorem test_decode_shl : decode 0x1011000A#32 = .ok (.shl 1 1 10) := by decide
theorem test_decode_shr : decode 0x1131003F#32 = .ok (.shr 3 1 63) := by decide
theorem test_decode_add : decode 0x20201000#32 = .ok (.add 2 0 1) := by decide
theorem test_decode_sub : decode 0x21332000#32 = .ok (.sub 3 3 2) := by decide
theorem test_decode_mul : decode 0x30302000#32 = .ok (.mul 3 0 2) := by decide
theorem test_decode_dec : decode 0x40010000#32 = .ok (.dec 1) := by decide
/-- V-DC3, V-DC6, V-DC9, V-SH19, V-DE13. -/
theorem test_decode_unused_fields :
    decode 0x01000001#32 = .error .nonzeroUnusedField ∧ decode 0x20000001#32 = .error .nonzeroUnusedField ∧
    decode 0x40100000#32 = .error .nonzeroUnusedField ∧ decode 0x10311004#32 = .error .nonzeroUnusedField ∧
    decode 0x40110000#32 = .error .nonzeroUnusedField := by decide
/-- V-DC1, V-DC4, V-DC5. -/
theorem test_decode_unassigned :
    decode 0x00000000#32 = .error .unassignedOpcode ∧ decode 0x05000000#32 = .error .unassignedOpcode ∧
    decode 0xFF000000#32 = .error .unassignedOpcode := by decide
theorem test_decodeTableWord : decodeTableWord 32 0x30312000 = some (.mul 3 1 2) ∧ decodeTableWord 32 0 = none := by decide

/-! ## Small states -/

/-- A register whose words are all written. -/
def words (ws : List Word) : List RegWord := ws.map RegWord.ofWord

/-- N = 2, NREG = 16, `b1` and `b2` as given, `b3` preset as in 95_test_vectors.md section 2, the rest 0. -/
def two (a b : List Word) : State :=
  { State.resetOf ⟨2, 16⟩ with
    regs := [words [0, 0], words a, words b, words [0x5A5A, 0x5A5A]] ++ List.replicate 12 (words [0, 0]) }

/-- N = 1, NREG = 2, `b1` as given. -/
def one (a : Word) : State := { State.resetOf ⟨1, 2⟩ with regs := [words [0], words [a]] }

/-- Arithmetic wraps are errors. -/
def strict (s : State) : State := { s with ctrl := ⟨true, true⟩ }

/-- What a field of the next state is. -/
def after {α : Type} (o : Host.Outcome State Fault Refusal) (f : State → α) : Option α :=
  match o with
  | .next t => some (f t)
  | .fault _ => none
  | .refused _ => none

/-- `b3` and STATUS. -/
def b3 (t : State) : List Word × Word := (t.regWords 3, t.status.word)

def max : List Word := [0xFFFFFFFFFFFFFFFF, 0xFFFFFFFFFFFFFFFF]

/-! ## Commands -/

/-- V-WO1. -/
theorem test_zero : after (exec (.zero 3) (two [0, 0] [0, 0])) b3 = some ([0, 0], 0) := by decide
/-- V-WO2. -/
theorem test_setw : after (exec (.setw 3 1) { two [0, 0] [0, 0] with data := 0x1122334455667788 }) b3 =
    some ([0x5A5A, 0x1122334455667788], 0) := by decide
/-- V-WO3. -/
theorem test_setw_index : after (exec (.setw 3 2) (two [0, 0] [0, 0])) b3 = some ([0x5A5A, 0x5A5A], 0x20200) := by decide
/-- V-WO4. -/
theorem test_getw : after (exec (.getw 1 1) (two [0, 0x1122334455667788] [0, 0])) State.data =
    some 0x1122334455667788 := by decide
/-- V-WO12 and the free value of R22: a word that nothing has written. -/
theorem test_getw_unwritten : after (exec (.getw 5 1) (State.resetOf ⟨2, 16⟩)) State.data =
    some (Config.uninit 0 (.rs1 1)) := by rfl
/-- V-WO7. -/
theorem test_len_zero : after (exec (.len 1) (two [0, 0] [0, 0])) State.data = some 0 := by decide
/-- V-WO9. -/
theorem test_len_top : after (exec (.len 1) (two [0, 7] [0, 0])) State.data = some 2 := by decide
/-- V-SH3. -/
theorem test_shl_lost : after (exec (.shl 3 1 4) (two [0x8000000000000001, 0xF000000000000001] [0, 0])) b3 =
    some ([0x10, 0x18], 0x4) := by decide
/-- V-SH4. -/
theorem test_shl_overflow : after (exec (.shl 3 1 4) (strict (two [0x8000000000000001, 0xF000000000000001] [0, 0]))) b3 =
    some ([0x5A5A, 0x5A5A], 0x100400) := by decide
/-- V-SH9. -/
theorem test_shr_cross : after (exec (.shr 3 1 1) (two [0, 1] [0, 0])) b3 = some ([0x8000000000000000, 0], 0) := by decide
/-- V-SH16. -/
theorem test_shr_index : after (exec (.shr 3 1 4095) (two [0, 1] [0, 0])) b3 = some ([0x5A5A, 0x5A5A], 0x110200) := by decide
/-- V-AS1. -/
theorem test_add_carry : after (exec (.add 3 1 2) (two [0xFFFFFFFFFFFFFFFF, 0] [1, 0])) b3 = some ([0, 1], 0) := by decide
/-- V-AS2. -/
theorem test_add_wrap : after (exec (.add 3 1 2) (two max [1, 0])) b3 = some ([0, 0], 0x6) := by decide
/-- V-AS8, UFE = 0. -/
theorem test_sub_wrap : after (exec (.sub 3 1 2) (two [1, 0] [0, 1])) b3 = some ([1, 0xFFFFFFFFFFFFFFFF], 0x4) := by decide
/-- V-AS8, UFE = 1. -/
theorem test_sub_underflow : after (exec (.sub 3 1 2) (strict (two [1, 0] [0, 1]))) b3 =
    some ([0x5A5A, 0x5A5A], 0x210300) := by decide
/-- V-MU1. -/
theorem test_mul_exact : after (exec (.mul 3 1 2) (two [1, 1] [0xFFFFFFFFFFFFFFFF, 0])) b3 = some (max, 0) := by decide
/-- V-MU5. -/
theorem test_mul_wrap : after (exec (.mul 3 1 2) (two max max)) b3 = some ([1, 0], 0x4) := by decide
/-- V-DE5: "1024" at D[17..20], DECLEN = 4. -/
theorem test_dec : after (exec (.dec 1) (one 1024)) (fun t => ((List.range 5).map fun k => t.digitByte (16 + k), t.declen)) =
    some ([0x30, 0x31, 0x30, 0x32, 0x34], 4) := by decide +kernel
/-- V-DE6: 2^64 - 1 fills all but the first byte. -/
theorem test_dec_max : after (exec (.dec 1) (one 0xFFFFFFFFFFFFFFFF)) (fun t => ([t.digitByte 0, t.digitByte 1, t.digitByte 20], t.declen)) =
    some ([0x30, 0x31, 0x35], 20) := by decide +kernel

/-! ## Decode and error priority, by a step -/

/-- V-DC14: ILLEGAL before INDEX. -/
theorem test_step_illegal : after (step ((two [0, 0] [0, 0]).withFetchWord 32 0x10311040)) b3 =
    some ([0x5A5A, 0x5A5A], 0x100100) := by decide
/-- V-DC1: the all-zero word. -/
theorem test_step_zero_word : after (step ((two [0, 0] [0, 0]).withFetchWord 32 0)) b3 = some ([0x5A5A, 0x5A5A], 0x100) := by
  decide
/-- V-DC15: INDEX before OVERFLOW, with NREG = 2. -/
theorem test_step_index : after (step ((strict (one 0xFFFFFFFFFFFFFFFF)).withFetchWord 32 0x20301000)) (fun t => t.status.word) =
    some 0x200200 := by decide
/-- V-AS14, as the first command after reset would be run: fetched, decoded, executed. -/
theorem test_step_add : after (step ((two [7, 0] [0, 0]).withFetchWord 32 0x20111000)) (fun t => t.regWords 1) =
    some [14, 0] := by decide
/-- V-DC16: a CMD write is dropped while ERR is not 0. -/
theorem test_cmd_dropped :
    ((two [0, 0] [0, 0]).raise .overflow 0x20#8).hostWrite offCmd .b64 0x20312000 =
      ((two [0, 0] [0, 0]).raise .overflow 0x20#8).setOvr := by decide

/-! ## Host interface -/

/-- V-HI2, V-HI3, V-HI5. -/
theorem test_param : Params.word ⟨11, 16⟩ = 0x000000D54010000B ∧ Params.word ⟨2, 16⟩ = 0x0000002840100002 ∧
    Params.word ⟨1, 1⟩ = 0x0000001540010001 := by decide +kernel
/-- V-HI7. -/
theorem test_ctrl_reserved_bits : ((two [0, 0] [0, 0]).hostWrite offCtrl .b64 0xFF).replyTo offCtrl .b64 = 3 := by decide
/-- V-HI8. -/
theorem test_status_read_only_bits : ((two [0, 0] [0, 0]).hostWrite offStatus .b64 0x7).status.word = 0 := by decide
/-- V-HI9. -/
theorem test_narrow_write : ((two [0, 0] [0, 0]).hostWrite offData .b32 9) = (two [0, 0] [0, 0]).setAcc ∧
    (two [0, 0] [0, 0]).setAcc.status.word = 0x10 := by decide
/-- V-HI11, V-HI12, V-HI20. -/
theorem test_unsupported : ((two [0, 0] [0, 0]).hostWrite 0x0C .b64 9).status.word = 0x10 ∧
    ((two [0, 0] [0, 0]).hostRead 0x30 .b64).status.word = 0x10 ∧ (two [0, 0] [0, 0]).replyTo 0x30 .b64 = 0 ∧
    ((two [0, 0] [0, 0]).hostWrite 0x10000 .b8 1).status.word = 0x10 := by decide
/-- V-HI27. -/
theorem test_errclr : ((two [0, 0] [0, 0]).raise .index 0x10#8).setOvr.hostWrite offStatus .b64 0x8008 =
    ((two [0, 0] [0, 0]).raise .index 0x10#8).clearError := by decide
/-- V-HI15 and V-HI18 for N = 1: a 64-bit read of the last digits is little-endian, and 0x00 past DLEN. -/
theorem test_digit_window : after (exec (.dec 1) (one 1024)) (fun t => (t.replyTo 0x10010 .b64, t.replyTo 0x10011 .b64, t.replyTo 0x10010 .b32)) =
    some (0x0000003432303130, 0, 0) := by decide +kernel
/-- R9's table. -/
theorem test_dlen : Params.dlen ⟨1, 16⟩ = 21 ∧ Params.dlen ⟨2, 16⟩ = 40 ∧ Params.dlen ⟨11, 16⟩ = 213 := by decide +kernel
/-- V-HI1: STATUS after reset. -/
theorem test_reset_status : State.reset.status.word = 0 ∧ State.reset.params = ⟨11, 16⟩ := by decide
/-- R91: the expansion of `LDI`, with the words of 95_test_vectors.md P1, actions 1 to 3. -/
theorem test_ldi : pseudoLdi 0 1 = [.write offData .b64 1, .write offCmd .b64 0x01000000, .waitIdle,
    .write offCmd .b64 0x02000000, .waitIdle] := by decide

/-! ## States that meet the invariant -/

/-- The invariant of a state whose digit buffer no DEC has written, as a check. -/
def invOk (s : State) : Bool :=
  s.params.legal && s.regs.length == s.params.nreg && s.regs.all (fun r => r.length == s.params.n) &&
  s.regs.all (fun r => r.all fun w => w.written || w.value == 0) && s.status.busy == s.pending.isSome &&
  (!s.pending.isSome || s.status.err == 0) && decide (s.status.err.toNat ≤ 4) &&
  (s.status.err != 0 || s.status.errop == 0) && (s.pending.isSome || s.delay == 0) && s.digits == [] && s.declen == 0

theorem inv_of_ok {s : State} (h : invOk s = true) : s.Inv := by
  simp only [invOk, Bool.and_eq_true, beq_iff_eq, List.all_eq_true, Bool.or_eq_true, Bool.not_eq_true', bne_iff_ne,
    decide_eq_true_eq] at h
  obtain ⟨⟨⟨⟨⟨⟨⟨⟨⟨⟨h1, h2⟩, h3⟩, h4⟩, h5⟩, h6⟩, h7⟩, h8⟩, h9⟩, h10⟩, h11⟩ := h
  refine ⟨h1, h2, h3, ?_, h5, ?_, h7, ?_, ?_, .inl ⟨h10, h11⟩⟩
  · intro r hr w hw hw2
    exact (h4 r hr w hw).resolve_left (by simp [hw2])
  · intro hp
    exact h6.resolve_left (by simp [hp])
  · intro he
    exact h8.resolve_left (by simpa using he)
  · intro hp
    exact h9.resolve_left (by simp [hp])

/-- N = 1 with a buffer that a DEC of 0 has written (V-DE1). -/
def rendered : State := { one 0 with digits := Memory.ofBytes 0 (List.replicate 21 0x30#8), declen := 1 }

theorem rendered_written : rendered.DigitsWritten :=
  ⟨by decide +kernel, by decide, by decide +kernel, by decide, by decide +kernel⟩

theorem rendered_inv : rendered.Inv :=
  ⟨by decide, by decide, by decide, by decide, by decide, by decide, by decide, by decide, by decide, .inr rendered_written⟩

/-- A state whose error was an OVERFLOW of ADD. -/
def failed : State := (two [0, 0] [0, 0]).raise .overflow Op.add.code

/-- A command accepted and due at once: `ADD b3, b1, b2`. -/
def due : State := (two [1, 0] [2, 0]).withPending 0x20312000#32

/-- The same command with two steps of its latency to pass, and a host with an action of each kind to come. -/
def waiting : State :=
  { due with
    delay := 2
    host := [.write offData .b64 9, .read offStatus .b64, .waitIdle, .reset] }

/-! ## Witnesses: states and operands that meet the hypotheses of each statement -/

theorem witness_DecodeOfEncodeIsIdentity : (Instr.shl 15 15 4095).wellFormed = true ∧ (Instr.mul 15 0 15).wellFormed = true := by
  decide

theorem witness_EncodeOfDecodeIsIdentity : decode 0x10FF0FFF#32 = .ok (.shl 15 15 4095) := by decide

theorem witness_EncodeFunctionAndExamples : (15 : Nat) < 16 ∧ (4095 : Nat) < 4096 ∧ (Instr.getw 15 4095).wellFormed = true := by
  decide

theorem witness_NonzeroUnusedFieldIsIllegal :
    opField 0x01010000#32 = Op.zero.code ∧ ¬ unusedZero 0x01010000#32 .zero ∧ decode 0x01010000#32 = .error .nonzeroUnusedField := by
  refine ⟨by decide, ?_, by decide⟩
  rintro ⟨h, -, -⟩
  exact absurd h (by decide)

/-- The ends of every reserved range. -/
theorem witness_ReservedOpcodesAreIllegal :
    ([0x00000000#32, 0x05000000#32, 0x0F000000#32, 0x12000000#32, 0x1F000000#32, 0x22000000#32, 0x2F000000#32, 0x31000000#32,
      0x3F000000#32, 0x41000000#32, 0xFF000000#32].all fun c => decide (decode c = .error .unassignedOpcode)) = true ∧
    (due.withPending 0x41000000#32).status.err.toNat ≤ 4 ∧ (due.withPending 0x41000000#32).due = some 0x41000000#32 := by decide

theorem witness_StepExecutesTheDueCommand :
    due.status.err.toNat ≤ 4 ∧ due.delay = 0 ∧ due.pending = some 0x20312000#32 ∧ decode 0x20312000#32 = .ok (.add 3 1 2) := by
  decide

theorem witness_StepPerformsTheNextHostAction :
    (two [0, 0] [0, 0]).status.err.toNat ≤ 4 ∧ (two [0, 0] [0, 0]).due = none ∧ (two [0, 0] [0, 0]).host = [] ∧
    waiting.status.err.toNat ≤ 4 ∧ waiting.due = none ∧
    waiting.host = .write offData .b64 9 :: [.read offStatus .b64, .waitIdle, .reset] := by decide

theorem witness_IdleBlockKeepsAllState :
    (two [7, 0] [0, 0]).Inv ∧ (two [7, 0] [0, 0]).pending = none ∧ (two [7, 0] [0, 0]).host = [] :=
  ⟨inv_of_ok (by decide), by decide, by decide⟩

theorem witness_PendingCommandCompletes :
    (waiting.Inv ∧ waiting.pending = some 0x20312000#32) ∧ due.Inv ∧ due.pending = some 0x20312000#32 :=
  ⟨⟨inv_of_ok (by decide), by decide⟩, inv_of_ok (by decide), by decide⟩

theorem witness_StepKeepsInvariant : (∃ t, waiting.Inv ∧ step waiting = .next t) ∧ ∃ t, due.Inv ∧ step due = .next t :=
  ⟨⟨_, inv_of_ok (by decide), rfl⟩, ⟨_, inv_of_ok (by decide), rfl⟩⟩

/-- The bounds of N and NREG (R7, R8). -/
theorem witness_ResetMeetsInvariant : Params.legal ⟨1, 1⟩ = true ∧ Params.legal ⟨1024, 16⟩ = true := by decide

theorem witness_ResetAbandonsThePendingCommand :
    let s := { waiting with host := [.reset] }
    s.status.err.toNat ≤ 4 ∧ s.due = none ∧ s.host = .reset :: [] ∧ s.pending = some 0x20312000#32 := by decide

/-- The last register of the file. -/
theorem witness_ResetValues : 15 < Params.nreg ⟨2, 16⟩ := by decide

theorem witness_ZeroClearsTheRegister : (two [1, 0] [2, 0]).Inv ∧ 15 < (two [1, 0] [2, 0]).params.nreg :=
  ⟨inv_of_ok (by decide), by decide⟩

/-- The last register and the last word. -/
theorem witness_SetwWritesOneWord :
    (two [1, 0] [2, 0]).Inv ∧ 15 < (two [1, 0] [2, 0]).params.nreg ∧ 1 < (two [1, 0] [2, 0]).params.n :=
  ⟨inv_of_ok (by decide), by decide, by decide⟩

/-- GETW of a written word, and of a word that nothing has written. -/
theorem witness_GetwReadsOneWord :
    (two [1, 0] [2, 0]).Inv ∧ 1 < (two [1, 0] [2, 0]).params.nreg ∧ 1 < (two [1, 0] [2, 0]).params.n ∧
    ((two [1, 0] [2, 0]).reg 1)[1]? = some (RegWord.ofWord 0) ∧ ((State.resetOf ⟨2, 16⟩).reg 5)[1]? = some RegWord.unwritten ∧
    (State.resetOf ⟨2, 16⟩).Inv :=
  ⟨inv_of_ok (by decide), by decide, by decide, by decide, by decide, inv_of_ok (by decide)⟩

/-- LEN of a value with a nonzero top word, and of 0. -/
theorem witness_LenCountsSignificantWords :
    (two [0, 7] [0, 0]).Inv ∧ (two [0, 7] [0, 0]).val1 1 ≠ 0 ∧ (two [0, 0] [0, 0]).Inv ∧ (two [0, 0] [0, 0]).val1 1 = 0 :=
  ⟨inv_of_ok (by decide), by decide, inv_of_ok (by decide), by decide⟩

/-- SHL that may wrap because OFE is 0, and one that loses nothing while OFE is 1. -/
theorem witness_ShlClosedForm :
    (two max [0, 0]).Inv ∧ (two max [0, 0]).ctrl.ofe = false ∧ (strict (two [1, 0] [0, 0])).Inv ∧
    (strict (two [1, 0] [0, 0])).val1 1 * 2 ^ 63 < 2 ^ (strict (two [1, 0] [0, 0])).params.bits :=
  ⟨inv_of_ok (by decide), by decide, inv_of_ok (by decide), by decide⟩

/-- V-SH13. -/
theorem witness_ShrClosedForm :
    (two max [0, 0]).Inv ∧ 3 < (two max [0, 0]).params.nreg ∧ 1 < (two max [0, 0]).params.nreg ∧ (63 : Nat) ≤ 63 :=
  ⟨inv_of_ok (by decide), by decide, by decide, by decide⟩

/-- V-SH14. -/
theorem witness_ShiftRoundTrip :
    let s := two [0x8000000000000001, 1] [0, 0]
    s.Inv ∧ s.val1 1 / 2 ^ (s.params.bits - 4) = 0 := ⟨inv_of_ok (by decide), by decide⟩

theorem witness_ComposedShiftsShiftByTheSum : ∀ n ∈ [63, 0, 2], n ≤ 63 := by decide

/-- V-AS2, and the greatest sum that fits while OFE is 1; the carry at both of its values. -/
theorem witness_AddClosedFormAndCarries :
    (two max [1, 0]).Inv ∧ (two max [1, 0]).ctrl.ofe = false ∧ (strict (two max [0, 0])).Inv ∧
    (strict (two max [0, 0])).val1 1 + (strict (two max [0, 0])).val2 2 < 2 ^ (strict (two max [0, 0])).params.bits ∧
    (1 : Nat) ≤ 1 ∧ (0 : Nat) ≤ 1 :=
  ⟨inv_of_ok (by decide), by decide, inv_of_ok (by decide), by decide, by decide, by decide⟩

/-- V-AS9, and V-AS13: equal operands while UFE is 1. -/
theorem witness_SubClosedForm :
    (two [0, 0] [1, 0]).Inv ∧ (two [0, 0] [1, 0]).ctrl.ufe = false ∧ (two [0, 0] [1, 0]).val1 1 < (two [0, 0] [1, 0]).val2 2 ∧
    (strict (two [0, 1] [0, 1])).Inv ∧ (strict (two [0, 1] [0, 1])).val2 2 ≤ (strict (two [0, 1] [0, 1])).val1 1 :=
  ⟨inv_of_ok (by decide), by decide, by decide, inv_of_ok (by decide), by decide⟩

/-- V-MU5, and V-MU1 while OFE is 1. -/
theorem witness_MulClosedForm :
    (two max max).Inv ∧ (two max max).ctrl.ofe = false ∧
    (strict (two [1, 1] [0xFFFFFFFFFFFFFFFF, 0])).Inv ∧
    (strict (two [1, 1] [0xFFFFFFFFFFFFFFFF, 0])).val1 1 * (strict (two [1, 1] [0xFFFFFFFFFFFFFFFF, 0])).val2 2 <
      2 ^ (strict (two [1, 1] [0xFFFFFFFFFFFFFFFF, 0])).params.bits :=
  ⟨inv_of_ok (by decide), by decide, inv_of_ok (by decide), by decide⟩

theorem witness_MultiplierFormsComputeTheProduct : max.length = ([3, 0] : List Word).length := by decide

/-- A factor 0, a factor 1, defined registers, a square that fits while OFE is 1, and a MUL with its next state. -/
theorem witness_MulCornerCases :
    let s := strict (two [12, 0] [1, 0])
    s.Inv ∧ s.val1 0 = 0 ∧ s.val2 2 = 1 ∧ s.defined 1 ∧ s.defined 2 ∧ s.val1 1 ^ 2 < 2 ^ s.params.bits ∧
    (∃ t, exec (.mul 3 1 2) (failed) = .next t) :=
  ⟨inv_of_ok (by decide), by decide, by decide, by intro w hw; revert w; decide, by intro w hw; revert w; decide, by decide, _, rfl⟩

theorem witness_MulRaisesNoUnderflow :
    after (exec (.mul 3 1 2) ((two [0, 0] [0, 0]).raise .underflow Op.sub.code)) (fun t => t.status.err) = some Error.underflow.code := by
  decide

/-- V-AS10. -/
theorem witness_SubUndoesAdd :
    let s := two max [1, 0]
    s.Inv ∧ (3 : Nat) ≠ 2 ∧ s.defined 2 ∧ s.ctrl.ofe = false ∧ s.ctrl.ufe = false :=
  ⟨inv_of_ok (by decide), by decide, by intro w hw; revert w; decide, by decide, by decide⟩

theorem witness_DecWritesTheDecimalDigits :
    (one 1024).Inv ∧ 1 < (one 1024).params.nreg ∧ rendered.Inv ∧ 1 < rendered.params.nreg :=
  ⟨inv_of_ok (by decide), by decide, rendered_inv, by decide⟩

/-- Digits with a nonzero one, and digits that are all 0. -/
theorem witness_DeclenTrimsLeadingZeros :
    (∃ d ∈ [0, 0, 5, 0], d ≠ 0) ∧ 1 < firstDigit [0, 0, 5, 0] ∧ (∀ d ∈ [0, 0], d = 0) ∧
    after (exec (.dec 1) (one 1024)) (fun t => decide (1 < t.declen.toNat)) = some true := by
  refine ⟨⟨5, by decide, by decide⟩, by decide, by decide, by decide +kernel⟩

/-- The digits of the greatest value before its last step: N = 1, j = 0. -/
theorem witness_NoDigitOverflowsInDec :
    let ds := [0, 0, 9, 2, 2, 3, 3, 7, 2, 0, 3, 6, 8, 5, 4, 7, 7, 5, 8, 0, 7]
    2 ^ 64 - 1 < 2 ^ Params.bits ⟨1, 16⟩ ∧ ds.length = Params.dlen ⟨1, 16⟩ ∧ AllDigits ds ∧
    digitsVal ds = (2 ^ 64 - 1) / 2 ^ (0 + 1) :=
  ⟨by decide, by decide +kernel, by unfold AllDigits; decide, by decide⟩

theorem witness_AddThreeCircuitAgrees : (1 : Nat) ≤ 1 ∧ [4, 5] ≠ [] ∧ AllDigits [4, 5] :=
  ⟨by decide, by decide, by unfold AllDigits; decide⟩

theorem witness_DecCornerCases :
    (one 0).Inv ∧ (one 0).val1 1 = 0 ∧ (one 0xFFFFFFFFFFFFFFFF).Inv ∧
    (one 0xFFFFFFFFFFFFFFFF).val1 1 = 2 ^ (one 0xFFFFFFFFFFFFFFFF).params.bits - 1 :=
  ⟨inv_of_ok (by decide), by decide, inv_of_ok (by decide), by decide⟩

/-- The first index out of range of each kind, and the last in range (V-WO3, V-SH8, V-DC10). -/
theorem witness_IndexIsRaisedExactlyOutOfRange :
    indexCondition ⟨2, 4⟩ (.setw 3 2) ∧ indexCondition ⟨2, 4⟩ (.shl 3 1 64) ∧ indexCondition ⟨2, 4⟩ (.add 3 1 4) ∧
    ¬ indexCondition ⟨2, 4⟩ (.setw 3 1) ∧ ¬ indexCondition ⟨2, 4⟩ (.shl 3 1 63) ∧
    (∃ t, exec (.shl 3 1 63) (two [0, 0] [0, 0]) = .next t) := by
  refine ⟨.inr (by simp [badImm]), .inr (by simp [badImm]), .inl ⟨4, by decide, by decide⟩, ?_, ?_, _, rfl⟩
  · simp [indexCondition, usedRegs, badImm]
  · simp [indexCondition, usedRegs, badImm]

/-- INDEX that an earlier command left in ERR. -/
theorem witness_IndexStays :
    after (exec (.zero 3) ((two [0, 0] [0, 0]).raise .index Op.setw.code)) (fun t => t.status.err) = some Error.index.code := by
  decide

/-- V-AS8, with UFE set and not set. -/
theorem witness_UnderflowFollowsUfe :
    (two [1, 0] [0, 1]).Inv ∧ (two [1, 0] [0, 1]).val1 1 < (two [1, 0] [0, 1]).val2 2 ∧ (two [1, 0] [0, 1]).ctrl.ufe = false ∧
    (strict (two [1, 0] [0, 1])).Inv ∧ (strict (two [1, 0] [0, 1])).val1 1 < (strict (two [1, 0] [0, 1])).val2 2 ∧
    (strict (two [1, 0] [0, 1])).ctrl.ufe = true :=
  ⟨inv_of_ok (by decide), by decide, by decide, inv_of_ok (by decide), by decide, by decide⟩

/-- V-AS3, V-SH6 and V-MU2: a carry, a lost bit and a product of exactly `2^M`. -/
theorem witness_OverflowFollowsOfe :
    (strict (two max [1, 0])).Inv ∧ (strict (two max [1, 0])).ctrl.ofe = true ∧ (two max [1, 0]).ctrl.ofe = false ∧
    2 ^ (two max [1, 0]).params.bits ≤ (two max [1, 0]).val1 1 + (two max [1, 0]).val2 2 ∧
    2 ^ (two [0, 0x8000000000000000] [0, 0]).params.bits ≤ (two [0, 0x8000000000000000] [0, 0]).val1 1 * 2 ^ 1 ∧
    2 ^ (two [0, 1] [0, 1]).params.bits ≤ (two [0, 1] [0, 1]).val1 1 * (two [0, 1] [0, 1]).val2 2 :=
  ⟨inv_of_ok (by decide), by decide, by decide, by decide, by decide, by decide⟩

/-- A command that never raises OVERFLOW, while ERR holds an earlier one. -/
theorem witness_OverflowStays :
    (Instr.sub 3 1 2).op ∈ [Op.shr, .sub, .dec, .zero, .setw, .getw, .len] ∧
    after (exec (.sub 3 1 2) failed) (fun t => t.status.err) = some Error.overflow.code := by decide

/-- V-DC14, V-DC8 and a command without an error. -/
theorem witness_ErrorPriority :
    due.status.err.toNat ≤ 4 ∧ due.due = some 0x20312000#32 ∧ decode 0x20312000#32 = .ok (.add 3 1 2) ∧
    ¬ indexCondition due.params (.add 3 1 2) ∧ decode 0x10311040#32 = .error .nonzeroUnusedField ∧
    decode 0x02000040#32 = .ok (.setw 0 64) ∧ indexCondition due.params (.setw 0 64) := by
  refine ⟨by decide, by decide, by decide, ?_, by decide, by decide, .inr (by simp [badImm, due, two, State.resetOf, State.withPending])⟩
  simp [indexCondition, usedRegs, badImm, due, two, State.resetOf, State.withPending]

theorem witness_ErrorsArePrecise : due.due = some 0x20312000#32 ∧ ∃ t, step due = .next t := ⟨by decide, _, rfl⟩

theorem witness_CommandsAreDroppedWhileErr : failed.Inv ∧ failed.status.err ≠ 0#4 := ⟨inv_of_ok (by decide), by decide⟩

theorem witness_ErrclrReturnsFromTheError :
    (failed.Inv ∧ failed.status.err ≠ 0#4 ∧ (0x8000#64).getLsbD 15 = true) ∧ due.Inv ∧ due.status.busy = true :=
  ⟨⟨inv_of_ok (by decide), by decide, by decide⟩, inv_of_ok (by decide), by decide⟩

/-- A host that clears the error, and one that does not. -/
theorem witness_ErrHoldsTheFirstError :
    (∃ t, ({ failed with host := [.write offStatus .b64 0x8000] } : State).Inv ∧ failed.status.err ≠ 0#4 ∧
      step { failed with host := [.write offStatus .b64 0x8000] } = .next t) ∧
    ∃ t, ({ failed with host := [.write offCmd .b64 0] } : State).Inv ∧ step { failed with host := [.write offCmd .b64 0] } = .next t :=
  ⟨⟨_, inv_of_ok (by decide), by decide, rfl⟩, ⟨_, inv_of_ok (by decide), rfl⟩⟩

/-- A state whose next step executes a command with a result, for the statements about every step. -/
theorem witness_FlagsChangeOnlyWithAResult : ∃ t, due.Inv ∧ step due = .next t ∧ due.running = some (.add 3 1 2) :=
  ⟨_, inv_of_ok (by decide), rfl, by decide⟩

theorem witness_RegistersChangeOnlyAsDestination : ∃ t, step due = .next t ∧ t.reg 3 ≠ due.reg 3 :=
  ⟨_, rfl, by decide⟩

theorem witness_WrittenWordsStayWritten :
    ∃ t, due.Inv ∧ step due = .next t ∧ due.acting ≠ some .reset ∧
      (due.reg 3)[1]? = some (RegWord.ofWord 0x5A5A) ∧ (RegWord.ofWord 0x5A5A).written = true :=
  ⟨_, inv_of_ok (by decide), rfl, by decide, by decide, rfl⟩

theorem witness_DataChangesOnlyByItsWriters :
    after (step ((two [0, 7] [0, 0]).withPending 0x04010000#32)) State.data = some 2 ∧
    after (step { two [0, 0] [0, 0] with host := [.write offData .b64 9] }) State.data = some 9 := by decide

theorem witness_BusyFollowsThePendingCommand :
    (two [0, 0] [0, 0]).status.busy = false ∧ (two [0, 0] [0, 0]).status.err = 0#4 ∧ due.due = some 0x20312000#32 ∧
    (∃ t, step due = .next t) ∧ due.Inv ∧ due.status.busy = true :=
  ⟨by decide, by decide, by decide, ⟨_, rfl⟩, inv_of_ok (by decide), by decide⟩

/-- V-HI21 to V-HI23 and V-DC16; a step that sets OVR, and one that clears it. -/
theorem witness_OvrRecordsDroppedWrites :
    due.status.busy = true ∧ failed.status.err ≠ 0#4 ∧
    waiting.status.ovr = false ∧ after (step waiting) (fun t => t.status.ovr) = some true ∧
    (two [0, 0] [0, 0]).setOvr.status.ovr = true ∧
    after (step { (two [0, 0] [0, 0]).setOvr with host := [.write offStatus .b64 8] }) (fun t => t.status.ovr) = some false := by
  decide

theorem witness_DeclenRegister :
    (one 0).Inv ∧ (one 0).digits = [] ∧ rendered.Inv ∧ rendered.digits ≠ [] ∧ rendered.status.busy = false :=
  ⟨inv_of_ok (by decide), by decide, rendered_inv, by decide, by decide⟩

theorem witness_ParamReportsTheParameters : ∃ t, due.Inv ∧ step due = .next t := ⟨_, inv_of_ok (by decide), rfl⟩

/-- BUSY; an error; neither; and two CMD writes that agree in their low halves. -/
theorem witness_CmdWriteAcceptance :
    due.status.busy = true ∧ failed.status.busy = false ∧ failed.status.err ≠ 0#4 ∧
    (two [0, 0] [0, 0]).status.busy = false ∧ (two [0, 0] [0, 0]).status.err = 0#4 ∧
    (0xFFFFFFFF20312000#64).setWidth 32 = (0x20312000#64).setWidth 32 := by decide

theorem witness_DataAndCtrlWrites : due.status.busy = true ∧ failed.status.busy = false := by decide

/-- A register, the digit window once it is written, and a STATUS write that changes something. -/
theorem witness_ReadsHaveNoSideEffects :
    (one 0).Inv ∧ (one 0).pending = none ∧ offParam.toNat < 0x10000 ∧
    rendered.Inv ∧ rendered.pending = none ∧ rendered.DigitsWritten ∧
    writeSupported offStatus .b64 = true ∧ failed.hostWrite offStatus .b64 0x8000 ≠ failed :=
  ⟨inv_of_ok (by decide), by decide, by decide, rendered_inv, by decide, rendered_written, by decide, by decide⟩

theorem witness_ReadsWhileBusy : due.status.busy = true ∧ (0xFFFF : Nat) < 0x10000 ∧ (0xFFF8 : Nat) < 0x10000 ∧ 0xFFF8 % 8 = 0 := by
  decide

/-- The last digit, the first offset past the buffer, and the end of the window. -/
theorem witness_DigitWindowBytes :
    rendered.status.busy = false ∧ 20 < rendered.params.dlen ∧ Memory.get? rendered.digits 20 = some 0x30#8 ∧
    rendered.params.dlen ≤ 21 ∧ (0xFFFF : Nat) < 0x10000 := by
  refine ⟨by decide, by decide +kernel, by decide, by decide +kernel, by decide⟩

theorem witness_MixedWidthReadsAgree : rendered.status.busy = false ∧ (7 : Nat) < 8 ∧ 8 * 0x1FFF + 7 < 0x10000 := by decide

/-- A misaligned and a narrow access, and the last aligned one. -/
theorem witness_RegisterOffsetsTakeAlignedWords :
    (0x0C#17).toNat < 0x30 ∧ ¬ (Width.b64 = .b64 ∧ (0x0C#17).toNat % 8 = 0) ∧ ¬ (Width.b32 = .b64 ∧ (0x08#17).toNat % 8 = 0) ∧
    (0x28#17).toNat < 0x30 ∧ (0x28#17).toNat % 8 = 0 := by decide

/-- The ends of the digit window and of the unmapped gap. -/
theorem witness_DigitWindowAndUnmappedAccesses :
    0x10000 ≤ (0x10000#17).toNat ∧ 0x10000 ≤ (0x1FFFF#17).toNat ∧ (0x1FFF8#17).toNat % 8 = 0 ∧
    ¬ (Width.b16 = .b8 ∨ (Width.b16 = .b64 ∧ (0x10000#17).toNat % 8 = 0)) ∧
    0x30 ≤ (0x30#17).toNat ∧ (0x30#17).toNat < 0x10000 ∧ 0x30 ≤ (0xFFFF#17).toNat ∧ (0xFFFF#17).toNat < 0x10000 := by decide

end Sys2Proof.Tests
end

section
/-! PROOFS. The registers STATUS.BUSY, DECLEN and PARAM (10_state.md): what completing a command and any step leave behind,
and the obligations `BusyFollowsThePendingCommand`, `DeclenRegister` and `ParamReportsTheParameters`. -/

namespace Sys2Proof.Machine

open Sys2Proof

/-! ## What a step does to pending, BUSY and the parameters -/

/-- However a command ends, with an error or without, it completes (R25, R39, R205). -/
theorem ExecCase.completed {i : Instr} {s t : State} (h : ExecCase i s t) : Completed s t := by
  cases h with
  | raised e _ => exact (raise_raised s e i.op.code).completed
  | result | zero | setw | data | digits => exact ⟨rfl, rfl, rfl, rfl, rfl, rfl, rfl, rfl⟩

theorem exec_completed {i : Instr} {s t : State} (h : exec i s = .next t) : Completed s t := by
  obtain ⟨u, hu, hcase⟩ := exec_cases i s
  obtain rfl : u = t := by simpa [hu] using h
  exact hcase.completed

/-- The step that executes a due command completes it, also where its word is ILLEGAL (R39, R88). -/
theorem step_completed_of_due {s t : State} {c : Cmd} (hdue : s.due = some c) (h : step s = .next t) :
    Completed s t := by
  obtain ⟨-, ⟨c', _, -, -, rfl⟩ | ⟨_, _, -, -, hexec⟩ | ⟨hnone, -⟩⟩ := step_cases h
  · exact (raise_raised s .illegal (opField c')).completed
  · exact exec_completed hexec
  · simp [hdue] at hnone

theorem tick_params {s : State} (hdue : s.due = none) : s.tick.params = s.params := by
  obtain ⟨-, rest, ht⟩ | ⟨off, v, -, hoff, rest, ht⟩ | ⟨_, _, _, _, _, ht⟩ := tick_cases s hdue
  · rw [ht]; rfl
  · obtain ⟨-, hparams, -⟩ := hostWrite_frame { s with delay := s.delay - 1, host := rest } off v hoff
    rw [ht, hparams]
  · rw [ht]

/-- The parameters are fixed by the synthesis (R7, R8): not even a reset changes them. -/
theorem step_params {s t : State} (h : step s = .next t) : t.params = s.params := by
  obtain ⟨-, ⟨_, _, -, -, rfl⟩ | ⟨_, _, -, -, hexec⟩ | ⟨hdue, rfl⟩⟩ := step_cases h
  · rfl
  · exact (exec_completed hexec).params
  · exact tick_params hdue

/-! ## The fields of PARAM -/

/-- Bits `lo + len - 1` down to `lo` of a word, as a number (R12). -/
theorem toNat_extractLsb' (w : Word) (lo len : Nat) :
    (w.extractLsb' lo len).toNat = w.toNat / 2 ^ lo % 2 ^ len := by
  rw [BitVec.extractLsb'_toNat, Nat.shiftRight_eq_div_pow]

theorem params_legal_iff (p : Params) : p.legal = true ↔ 1 ≤ p.n ∧ p.n ≤ 1024 ∧ 1 ≤ p.nreg ∧ p.nreg ≤ 16 := by
  simp [Params.legal, and_assoc]

/-- With legal parameters no field of PARAM runs into the next one (R35, R36). -/
theorem paramsWord_fields {p : Params} (h : p.legal = true) :
    ((Params.word p).extractLsb' 0 16).toNat = p.n ∧ ((Params.word p).extractLsb' 16 8).toNat = p.nreg ∧
    ((Params.word p).extractLsb' 24 8).toNat = 64 ∧ ((Params.word p).extractLsb' 32 16).toNat = p.dlen ∧
    ((Params.word p).extractLsb' 48 16).toNat = 0 := by
  have hdlen := dlen_lt p h
  obtain ⟨-, hn, -, hnreg⟩ := (params_legal_iff p).mp h
  simp only [toNat_extractLsb', paramsWord_toNat p h]
  omega

/-! ## DECLEN and the digit buffer -/

/-- A buffer that a DEC has written lists bytes: DLEN is not 0 (R9, R38). -/
theorem State.DigitsWritten.digits_ne_nil {s : State} (h : s.DigitsWritten) : s.digits ≠ [] := by
  intro hnil
  have haddr := h.addresses
  obtain ⟨hdlen, -⟩ := dlen_spec s.params
  rw [hnil, List.map_nil, eq_comm, List.range_eq_nil] at haddr
  omega

theorem State.DigitsWritten.declen_ne_zero {s : State} (h : s.DigitsWritten) : s.declen ≠ 0#64 := by
  intro hzero
  have hone := h.atLeastOne
  simp [hzero] at hone

theorem State.Inv.digitsWritten_of_ne_nil {s : State} (h : s.Inv) (hne : s.digits ≠ []) : s.DigitsWritten :=
  h.digitBuffer.resolve_left fun hun => hne hun.1

/-- DECLEN tells whether a DEC has completed since reset (R34). -/
theorem State.Inv.declen_eq_zero_iff {s : State} (h : s.Inv) : s.declen = 0#64 ↔ s.digits = [] := by
  obtain ⟨hdigits, hdeclen⟩ | hwritten := h.digitBuffer
  · exact iff_of_true hdeclen hdigits
  · exact iff_of_false hwritten.declen_ne_zero hwritten.digits_ne_nil

/-! ## The obligations -/

/-- Settles O50: PARAM's word holds its fields side by side, and a step keeps the parameters it is made of. -/
theorem paramReportsTheParameters : Obligations.ParamReportsTheParameters := by
  refine ⟨fun s hinv => ?_, hostWrite_param, fun s t h => ?_⟩
  · rw [replyTo_param]
    exact paramsWord_fields hinv.paramsLegal
  · rw [replyTo_param, replyTo_param, step_params h]

/-- Settles O46: acceptance by the cases of a CMD write, completion of every executed command, and the invariant. -/
theorem busyFollowsThePendingCommand : Obligations.BusyFollowsThePendingCommand := by
  refine ⟨fun s v hbusy herr => ?_, fun s t c hdue h => ?_, fun s hinv hbusy => ?_⟩
  · rw [hostWrite_cmd]
    obtain ⟨hdropped | hdropped, -⟩ | ⟨-, -, haccepted⟩ := writeCmd_cases s v
    · simp [hbusy] at hdropped
    · exact absurd herr hdropped
    · rw [haccepted]
      exact ⟨rfl, rfl⟩
  · have hdone := step_completed_of_due hdue h
    exact ⟨hdone.busy, hdone.pending⟩
  · exact Option.isSome_iff_exists.mp (hinv.busyIffPending ▸ hbusy)

/-- Settles O49: the invariant's two cases of the digit buffer fix DECLEN. -/
theorem declenRegister : Obligations.DeclenRegister := by
  refine ⟨hostWrite_declen, rfl, fun s hinv => ⟨hinv.declen_eq_zero_iff, fun hne => ?_⟩, fun s hbusy => ?_⟩
  · have hwritten := hinv.digitsWritten_of_ne_nil hne
    exact ⟨hwritten.count, hwritten.atLeastOne, Nat.le_sub_one_of_lt hwritten.belowDlen⟩
  · simp [replyTo_declen, hbusy]

end Sys2Proof.Machine
end

section
/-! PROOFS. Writes to the host registers CMD, DATA and CTRL (20_memory.md): when one is dropped and what it writes otherwise,
and the obligations `CmdWriteAcceptance` and `DataAndCtrlWrites`. -/

namespace Sys2Proof.Machine

open Sys2Proof

section
variable {s : State}

/-! ## A CMD write -/

/-- A CMD write is dropped while BUSY is 1 or ERR is not 0 (R55). -/
theorem hostWrite_cmd_of_drop (h : s.status.busy = true ∨ s.status.err ≠ 0#4) (v : Word) :
    s.hostWrite offCmd .b64 v = s.setOvr := by
  rw [hostWrite_cmd]
  obtain ⟨-, hdropped⟩ | ⟨hbusy, herr, -⟩ := writeCmd_cases s v
  · exact hdropped
  · simp [hbusy, herr] at h

/-- Any other CMD write is accepted (R55, R37). -/
theorem hostWrite_cmd_of_accept (hbusy : s.status.busy = false) (herr : s.status.err = 0#4) (v : Word) :
    s.hostWrite offCmd .b64 v = { s with
      pending := some (v.setWidth 32)
      status := { s.status with busy := true }
      delay := Config.lat s.draws (v.setWidth 32)
      draws := s.draws + 1 } := by
  rw [hostWrite_cmd]
  obtain ⟨hdrop, -⟩ | ⟨-, -, haccepted⟩ := writeCmd_cases s v
  · simp [hbusy, herr] at hdrop
  · exact haccepted

theorem hostWrite_cmd_congr (s : State) {v w : Word} (h : v.setWidth 32 = w.setWidth 32) :
    s.hostWrite offCmd .b64 v = s.hostWrite offCmd .b64 w := by
  simp only [hostWrite_cmd, State.writeCmd, h]

theorem bitAt_mod_two (b : Bool) {i : Nat} (hi : 0 < i) : bitAt b i % 2 = 0 := by
  obtain ⟨j, rfl⟩ := Nat.exists_eq_succ_of_ne_zero hi.ne'
  cases b <;> simp [bitAt, pow_succ]

/-- BUSY is bit 0 of STATUS (R24): every other field adds an even number to the word. -/
theorem statusWord_getLsbD_zero (st : Status) : st.word.getLsbD 0 = st.busy := by
  have hz := bitAt_mod_two st.z (i := 1) (by decide)
  have hw := bitAt_mod_two st.w (i := 2) (by decide)
  have hovr := bitAt_mod_two st.ovr (i := 3) (by decide)
  have hacc := bitAt_mod_two st.acc (i := 4) (by decide)
  have hparity : st.word.toNat % 2 = bitAt st.busy 0 % 2 := by
    rw [statusWord_toNat]
    omega
  rw [← BitVec.testBit_toNat, Nat.testBit_zero, hparity]
  cases st.busy <;> rfl

/-! ## DATA and CTRL writes -/

theorem hostWrite_data_of_busy (h : s.status.busy = true) (v : Word) : s.hostWrite offData .b64 v = s.setOvr := by
  rw [hostWrite_data, State.hostWriteData, if_pos h]

theorem hostWrite_data_of_idle (h : s.status.busy = false) (v : Word) : s.hostWrite offData .b64 v = s.writeData v := by
  simp [hostWrite_data, State.hostWriteData, h]

theorem hostWrite_ctrl_of_busy (h : s.status.busy = true) (v : Word) : s.hostWrite offCtrl .b64 v = s.setOvr := by
  rw [hostWrite_ctrl, State.writeCtrl, if_pos h]

theorem hostWrite_ctrl_of_idle (h : s.status.busy = false) (v : Word) :
    s.hostWrite offCtrl .b64 v = { s with ctrl := Ctrl.ofWord v } := by
  simp [hostWrite_ctrl, State.writeCtrl, h]

/-- CTRL reads back bits 1:0 of what was written and 0 elsewhere (R33, R56). -/
theorem ctrlWord_ofWord (v : Word) : (Ctrl.ofWord v).word = v &&& 3#64 := by
  have hlow : v.toNat &&& 3 = v.toNat % 4 := Nat.and_two_pow_sub_one_eq_mod v.toNat 2
  apply BitVec.eq_of_toNat_eq
  simp only [ctrlWord_toNat, Ctrl.ofWord, BitVec.toNat_and, BitVec.toNat_ofNat, ← BitVec.testBit_toNat,
    Nat.testBit_eq_decide_div_mod_eq, decide_eq_true_eq, Nat.reducePow, Nat.reduceMod, hlow]
  split <;> split <;> omega

end

/-! ## The obligations -/

/-- Settles O51: the two cases of a CMD write, and BUSY's place in the STATUS word. -/
theorem cmdWriteAcceptance : Obligations.CmdWriteAcceptance := by
  refine fun s v => ⟨fun hbusy => hostWrite_cmd_of_drop (.inl hbusy) v,
    fun _ herr => hostWrite_cmd_of_drop (.inr herr) v, fun hbusy herr => ?_,
    fun w hlow => hostWrite_cmd_congr s hlow, replyTo_cmd s⟩
  have haccepted := hostWrite_cmd_of_accept hbusy herr v
  refine ⟨_, _, haccepted, ?_⟩
  rw [replyTo_status, statusWord_getLsbD_zero, haccepted]

/-- Settles O52: the write of DATA and of CTRL with BUSY 1 and with BUSY 0, and what the written register reads. -/
theorem dataAndCtrlWrites : Obligations.DataAndCtrlWrites := by
  refine fun s v => ⟨fun hbusy => ⟨hostWrite_data_of_busy hbusy v, hostWrite_ctrl_of_busy hbusy v⟩,
    fun hidle => ?_⟩
  have hdata := hostWrite_data_of_idle hidle v
  have hctrl := hostWrite_ctrl_of_idle hidle v
  refine ⟨hdata, ?_, hctrl, ?_⟩
  · simp [hdata, replyTo_data, hidle]
  · rw [hctrl, replyTo_ctrl, ctrlWord_ofWord]

end Sys2Proof.Machine
end

section
/-! PROOFS. The encoding (30_encoding.md): which words are ILLEGAL and for which reason, what an ILLEGAL word does when it is
due, and the obligations `NonzeroUnusedFieldIsIllegal`, `ReservedOpcodesAreIllegal` and `EncodeFunctionAndExamples`. -/

namespace Sys2Proof

/-! ## The opcode field and the rows -/

theorem opField_toNat (c : Cmd) : (opField c).toNat = cmdBits c 31 24 := by
  rw [opField, BitVec.toNat_ofNat, Nat.mod_eq_of_lt (cmdBits_lt c 31 24)]

/-- A row's match and mask hold exactly for its opcode with the unused fields 0 (R85, R86). -/
theorem fits_iff_opField (c : Cmd) (o : Op) : o.fits c = true ↔ opField c = o.code ∧ unusedZero c o := by
  rw [fits_iff, ← opField_toNat, BitVec.toNat_inj]

@[simp] theorem op_build (rd rs1 rs2 imm : Nat) (o : Op) : (o.build rd rs1 rs2 imm).op = o := by cases o <;> rfl

/-- A decoded command is of the row that the word's opcode names (R88). -/
theorem opField_of_decode_ok {c : Cmd} {i : Instr} (h : decode c = .ok i) : opField c = i.op.code := by
  obtain ⟨o, hfits, rfl⟩ := decode_ok h
  rw [op_build]
  exact ((fits_iff_opField c o).mp hfits).1

/-! ## The reasons for a word to be ILLEGAL -/

theorem illegalReason_of_assigned {c : Cmd} {o : Op} (h : opField c = o.code) :
    illegalReason c = .nonzeroUnusedField := by
  have hrow : ∃ p ∈ Op.all, (p.code == opField c) = true := ⟨o, mem_all o, by rw [h, beq_self_eq_true]⟩
  rw [illegalReason, if_pos (List.any_eq_true.mpr hrow)]

theorem illegalReason_of_unassigned {c : Cmd} (h : ∀ o : Op, opField c ≠ o.code) :
    illegalReason c = .unassignedOpcode := by
  rw [illegalReason, if_neg]
  intro hany
  obtain ⟨o, -, ho⟩ := List.any_eq_true.mp hany
  exact h o (beq_iff_eq.mp ho).symm

/-- The opcode tells the rows apart, so a word with a row's opcode that does not fit this row fits none (R86). -/
theorem decode_of_nonzeroUnused {c : Cmd} {o : Op} (hop : opField c = o.code) (hunused : ¬ unusedZero c o) :
    decode c = .error .nonzeroUnusedField := by
  refine (decode_error_iff c _).mpr ⟨fun p => ?_, (illegalReason_of_assigned hop).symm⟩
  rw [Bool.eq_false_iff]
  intro hfits
  obtain ⟨hp, hzero⟩ := (fits_iff_opField c p).mp hfits
  obtain rfl : o = p := code_injective (by rw [← hop, hp])
  exact hunused hzero

theorem decode_eq_unassigned_iff (c : Cmd) :
    decode c = .error .unassignedOpcode ↔ ∀ o : Op, opField c ≠ o.code := by
  rw [decode_error_iff]
  constructor
  · rintro ⟨-, hreason⟩ o hop
    simp [illegalReason_of_assigned hop] at hreason
  · intro h
    refine ⟨fun o => Bool.eq_false_iff.mpr fun hfits => ?_, (illegalReason_of_unassigned h).symm⟩
    exact h o ((fits_iff_opField c o).mp hfits).1

/-! ## The reserved opcodes -/

/-- The reserved opcode values (R87). -/
def reservedOpcode (n : Nat) : Prop :=
  n = 0x00 ∨ (0x05 ≤ n ∧ n ≤ 0x0F) ∨ (0x12 ≤ n ∧ n ≤ 0x1F) ∨ (0x22 ≤ n ∧ n ≤ 0x2F) ∨ (0x31 ≤ n ∧ n ≤ 0x3F) ∨
    (0x41 ≤ n ∧ n ≤ 0xFF)

theorem assigned_iff (b : Byte) :
    (∃ o : Op, b = o.code) ↔ b.toNat ∈ [0x01, 0x02, 0x03, 0x04, 0x10, 0x11, 0x20, 0x21, 0x30, 0x40] := by
  have hcodes : Op.all.map (fun o => o.code.toNat) = [0x01, 0x02, 0x03, 0x04, 0x10, 0x11, 0x20, 0x21, 0x30, 0x40] := rfl
  simp [← hcodes, mem_all, BitVec.toNat_inj, eq_comm]

/-- The reserved values are those of the byte that no row has (R85, R87). -/
theorem reservedOpcode_iff (b : Byte) : reservedOpcode b.toNat ↔ ∀ o : Op, b ≠ o.code := by
  have hb := b.isLt
  rw [← not_exists, assigned_iff]
  simp only [reservedOpcode, List.mem_cons, List.not_mem_nil, or_false]
  omega

/-! ## Encoded words -/

/-- The fields of `enc` do not overlap, and together they fit the word (R82, R89). -/
theorem enc_toNat (op : Byte) {rd rs1 rs2 imm : Nat} (hrd : rd < 16) (hrs1 : rs1 < 16) (hrs2 : rs2 < 16)
    (himm : imm < 4096) :
    (enc op rd rs1 rs2 imm).toNat = op.toNat * 2 ^ 24 + rd * 2 ^ 20 + rs1 * 2 ^ 16 + rs2 * 2 ^ 12 + imm := by
  have hop := op.isLt
  rw [enc, BitVec.toNat_ofNat, Nat.mod_eq_of_lt]
  omega

theorem fits_encode {i : Instr} (h : i.wellFormed = true) : i.op.fits (encode i) = true :=
  match i with
  | .zero rd => Laws.RowFits.zero rd h
  | .setw rd pos => Laws.RowFits.setw rd pos h
  | .getw rs1 pos => Laws.RowFits.getw rs1 pos h
  | .len rs1 => Laws.RowFits.len rs1 h
  | .shl rd rs1 n => Laws.RowFits.shl rd rs1 n h
  | .shr rd rs1 n => Laws.RowFits.shr rd rs1 n h
  | .add rd rs1 rs2 => Laws.RowFits.add rd rs1 rs2 h
  | .sub rd rs1 rs2 => Laws.RowFits.sub rd rs1 rs2 h
  | .mul rd rs1 rs2 => Laws.RowFits.mul rd rs1 rs2 h
  | .dec rs1 => Laws.RowFits.dec rs1 h

end Sys2Proof

namespace Sys2Proof.Machine

open Sys2Proof

/-! ## An ILLEGAL word that is executed -/

/-- An ILLEGAL word raises ILLEGAL with its opcode, for either reason (R86, R87, R205). -/
theorem runCommand_of_illegal {c : Cmd} {e : Illegal} (h : decode c = .error e) (s : State) :
    runCommand c s = .next (s.raise .illegal (opField c)) := by
  rw [runCommand, h]

theorem step_of_due {s : State} {c : Cmd} (herr : s.status.err.toNat ≤ 4) (hdue : s.due = some c) :
    step s = runCommand c s := by
  have hok : ¬ s.errReserved = true := by simpa [State.errReserved] using herr
  rw [step, if_neg hok, hdue]

/-! ## The obligations -/

/-- Settles O5: the row's match and mask say opcode and unused fields, and no other row has this opcode. -/
theorem nonzeroUnusedFieldIsIllegal : Obligations.NonzeroUnusedFieldIsIllegal :=
  ⟨fun _ _ => decode_of_nonzeroUnused, fits_iff_opField, fun _ _ s h => runCommand_of_illegal h s, by decide⟩

/-- Settles O6: the reserved values are those of no row, and a due ILLEGAL word is the error entry. -/
theorem reservedOpcodesAreIllegal : Obligations.ReservedOpcodesAreIllegal := by
  refine ⟨fun c => ?_, by decide, fun c => ?_, fun s c e herr hdue h => ?_⟩
  · exact (reservedOpcode_iff (opField c)).trans (decode_eq_unassigned_iff c).symm
  · cases h : decode c with
    | error e => exact .inl ⟨e, rfl⟩
    | ok i => exact .inr ⟨i, rfl, opField_of_decode_ok h⟩
  · exact ⟨_, (step_of_due herr hdue).trans (runCommand_of_illegal h s), raise_raised s .illegal (opField c)⟩

/-- Settles O3: the sum is below `2^32`, and the word of a well-formed command fits its row. -/
theorem encodeFunctionAndExamples : Obligations.EncodeFunctionAndExamples := by
  refine ⟨fun op _ _ _ _ hrd hrs1 hrs2 himm => enc_toNat op hrd hrs1 hrs2 himm, fun i h => ?_, by decide, by decide⟩
  exact ((fits_iff _ _).mp (fits_encode h)).2

end Sys2Proof.Machine
end

section
/-! PROOFS. The shift commands (40_wordops.md): when the checks of SHL and SHR pass, what the left shifter keeps and loses as
remainder and quotient of the exact product, and the obligations `ShlClosedForm` and `ShrClosedForm`. -/

namespace Sys2Proof.Machine

open Sys2Proof

/-! ## The commands once their checks pass -/

theorem badAmount_eq_false (n : Nat) : badAmount n = false ↔ n ≤ 63 := by
  rw [badAmount, decide_eq_false_iff_not]
  omega

/-- No error is due if the enable is 0 or nothing wrapped (R202, R203). -/
theorem finishOr_eq_finish {s : State} {enable wrapped : Bool} (h : enable = false ∨ wrapped = false) (e : Error) (op : Op)
    (rd : Nat) (ws : List Word) : s.finishOr enable e op rd ws wrapped = s.finish rd ws wrapped := by
  have hno : ¬ (enable && wrapped) = true := by simpa [imp_iff_not_or] using h
  rw [State.finishOr, if_neg hno]

section
variable {s : State} {rd rs1 n : Nat} (hrd : rd < s.params.nreg) (hrs1 : rs1 < s.params.nreg) (hn : n ≤ 63)

include hrd hrs1 in
theorem badRegs_pair_eq_false : s.badRegs [rd, rs1] = false := by
  simp [badRegs_eq_false, hrd, hrs1]

include hrd hrs1 hn

theorem exec_shl_of_checks : exec (.shl rd rs1 n) s = .next (s.finishOr s.ctrl.ofe .overflow .shl rd
    (shlWords n 0#64 (s.src1 rs1)) (shlLost n (s.src1 rs1) != 0#64)) := by
  rw [exec, execShl, badRegs_pair_eq_false hrd hrs1, (badAmount_eq_false n).mpr hn]
  rfl

theorem exec_shr_of_checks : exec (.shr rd rs1 n) s = .next (s.finish rd (shrWords n (s.src1 rs1)) false) := by
  rw [exec, execShr, badRegs_pair_eq_false hrd hrs1, (badAmount_eq_false n).mpr hn]
  rfl

end

/-! ## What the left shifter keeps and what it loses -/

/-- The lost bits and the words of SHL are quotient and remainder of the exact product (R106). -/
theorem shlLost_shlWords_eq_div_mod {n : Nat} (hn : n ≤ 63) (ws : List Word) :
    val ws * 2 ^ n / 2 ^ (64 * ws.length) = (shlLost n ws).toNat ∧
    val ws * 2 ^ n % 2 ^ (64 * ws.length) = val (shlWords n 0#64 ws) := by
  have hlt : val (shlWords n 0#64 ws) < 2 ^ (64 * ws.length) := by
    simpa only [length_shlWords] using val_lt (shlWords n 0#64 ws)
  refine (Nat.div_mod_unique (by positivity)).mpr ⟨?_, hlt⟩
  rw [Nat.mul_comm (2 ^ _), shlWords_val n hn]

theorem shlLost_bne_zero_iff {n : Nat} (hn : n ≤ 63) (ws : List Word) :
    (shlLost n ws != 0#64) = true ↔ 2 ^ (64 * ws.length) ≤ val ws * 2 ^ n := by
  obtain ⟨hlost, -⟩ := shlLost_shlWords_eq_div_mod hn ws
  rw [bne_iff_ne, ne_eq, ← BitVec.toNat_inj, ← hlost, BitVec.toNat_ofNat, Nat.zero_mod, Nat.div_eq_zero_iff_lt (by positivity),
    not_lt]

/-- The two forms of R106's condition for W: the product reaches `2^m`, and the bits shifted beyond bit `m` are not all 0. -/
theorem le_mul_two_pow_iff_div_ne_zero {m n : Nat} (h : n ≤ m) (v : Nat) :
    2 ^ m ≤ v * 2 ^ n ↔ v / 2 ^ (m - n) ≠ 0 := by
  have hm : 2 ^ m = 2 ^ (m - n) * 2 ^ n := by rw [← pow_add, Nat.sub_add_cancel h]
  rw [ne_eq, Nat.div_eq_zero_iff_lt (by positivity), not_lt, hm]
  exact Nat.mul_le_mul_right_iff (by positivity)

/-- A register has at least one word (R7), so a legal shift amount is below its width. -/
theorem State.Inv.amount_le_bits {s : State} (h : s.Inv) {n : Nat} (hn : n ≤ 63) : n ≤ s.params.bits := by
  obtain ⟨hpos, -⟩ := (params_legal_iff s.params).mp h.paramsLegal
  rw [Params.bits]
  omega

/-! ## The obligations -/

/-- Settles O19: the shifter's words are the product modulo `2^M` and its lost bits the quotient, so no error is due where OFE
is 0 or the quotient is. -/
theorem shlClosedForm : Obligations.ShlClosedForm := by
  intro s rd rs1 n hinv hrd hrs1 hn hfits
  have hlen := Inv.length_src1 hinv hrs1
  obtain ⟨-, hval⟩ := shlLost_shlWords_eq_div_mod hn (s.src1 rs1)
  have hlost := shlLost_bne_zero_iff hn (s.src1 rs1)
  rw [hlen] at hval hlost
  have hnoError : s.ctrl.ofe = false ∨ (shlLost n (s.src1 rs1) != 0#64) = false :=
    hfits.imp_right fun hlt => Bool.eq_false_iff.mpr fun h => not_lt.mpr (hlost.mp h) hlt
  have hwrote := finish_wrote s rd _ (shlLost n (s.src1 rs1) != 0#64) (Inv.lt_length hinv hrd)
    ((length_shlWords n 0#64 (s.src1 rs1)).trans hlen)
  rw [← hval, propext hlost] at hwrote
  refine ⟨_, exec_shl_of_checks hrd hrs1 hn, ?_⟩
  rw [finishOr_eq_finish hnoError]
  exact ⟨hwrote, hwrote.wFlag.trans (le_mul_two_pow_iff_div_ne_zero (hinv.amount_le_bits hn) _)⟩

/-- Settles O20: the shifter's words are the quotient, and SHR ends with W = 0 whatever it shifts out (R110). -/
theorem shrClosedForm : Obligations.ShrClosedForm := by
  intro s rd rs1 n hinv hrd hrs1 hn
  have hwrote := finish_wrote s rd _ false (Inv.lt_length hinv hrd)
    ((length_shrWords n (s.src1 rs1)).trans (Inv.length_src1 hinv hrs1))
  rw [shrWords_val n hn, Bool.false_eq_true] at hwrote
  exact ⟨_, exec_shr_of_checks hrd hrs1 hn, hwrote⟩

end Sys2Proof.Machine
end

section
/-! PROOFS. The arithmetic commands (41_arithmetic.md): what the adder and the subtractor keep and what they lose, the
commands once their checks pass, and the obligations `AddClosedFormAndCarries`, `SubClosedForm` and `MulCornerCases`. -/

namespace Sys2Proof.Machine

open Sys2Proof

/-! ## The carry -/

/-- The carry chain passes on what exceeds a word (R130). -/
theorem addChain_cons (c : Nat) (a b : Word) (as bs : List Word) :
    addChain c (a :: as) (b :: bs) =
      (BitVec.ofNat 64 (a.toNat + b.toNat + c) :: (addChain ((a.toNat + b.toNat + c) / 2 ^ 64) as bs).1,
        (addChain ((a.toNat + b.toNat + c) / 2 ^ 64) as bs).2) := rfl

/-- The carry is 0 or 1, and 1 exactly if one of the additions `a + b` and `(a + b) mod 2^64 + c` overflows; they never both
do (R131). -/
theorem carry_eq_twoStep_overflow {c : Nat} (hc : c ≤ 1) (a b : Word) :
    (a.toNat + b.toNat + c) / 2 ^ 64 ≤ 1 ∧
    ((a.toNat + b.toNat + c) / 2 ^ 64 = 1 ↔ 2 ^ 64 ≤ a.toNat + b.toNat + c) ∧
    ((a.toNat + b.toNat + c) / 2 ^ 64 = 1 ↔
      2 ^ 64 ≤ a.toNat + b.toNat ∨ 2 ^ 64 ≤ (a.toNat + b.toNat) % 2 ^ 64 + c) ∧
    ¬ (2 ^ 64 ≤ a.toNat + b.toNat ∧ 2 ^ 64 ≤ (a.toNat + b.toNat) % 2 ^ 64 + c) := by
  have ha := a.isLt
  have hb := b.isLt
  omega

/-- The carry out and the words of the adder are quotient and remainder of the exact sum (R131). -/
theorem addChain_eq_div_mod {as bs : List Word} (h : as.length = bs.length) :
    (val as + val bs) / 2 ^ (64 * as.length) = (addChain 0 as bs).2 ∧
    (val as + val bs) % 2 ^ (64 * as.length) = val (addChain 0 as bs).1 := by
  have hlt : val (addChain 0 as bs).1 < 2 ^ (64 * as.length) := by
    simpa only [length_addChain 0 as bs h] using val_lt (addChain 0 as bs).1
  refine (Nat.div_mod_unique (by positivity)).mpr ⟨?_, hlt⟩
  rw [Nat.mul_comm (2 ^ _)]
  exact addChain_val 0 as bs h

theorem addChain_carry_eq_one_iff {as bs : List Word} (h : as.length = bs.length) :
    ((addChain 0 as bs).2 == 1) = true ↔ 2 ^ (64 * as.length) ≤ val as + val bs := by
  obtain ⟨hdiv, -⟩ := addChain_eq_div_mod h
  have hcarry := addChain_carry 0 (Nat.zero_le 1) as bs
  have hpos : 0 < (addChain 0 as bs).2 ↔ 2 ^ (64 * as.length) ≤ val as + val bs := by
    rw [← hdiv, Nat.div_pos_iff, and_iff_right (by positivity)]
  rw [← hpos, beq_iff_eq]
  omega

/-! ## The borrow -/

/-- The two cases of the subtractor (R136): a borrow out and the wrapped difference, or the exact difference. -/
theorem subChain_cases {as bs : List Word} (h : as.length = bs.length) :
    (val as < val bs ∧ (subChain 0 as bs).2 = 1 ∧
      val (subChain 0 as bs).1 = 2 ^ (64 * as.length) + val as - val bs) ∨
    (val bs ≤ val as ∧ (subChain 0 as bs).2 = 0 ∧ val (subChain 0 as bs).1 = val as - val bs) := by
  have hval := subChain_val 0 (Nat.zero_le 1) as bs h
  have hlt : val (subChain 0 as bs).1 < 2 ^ (64 * as.length) := by
    simpa only [length_subChain 0 as bs h] using val_lt (subChain 0 as bs).1
  obtain hborrow | hborrow := Nat.le_one_iff_eq_zero_or_eq_one.mp (subChain_borrow 0 (Nat.zero_le 1) as bs)
  · rw [hborrow] at hval
    exact .inr ⟨by omega, hborrow, by omega⟩
  · rw [hborrow] at hval
    exact .inl ⟨by omega, hborrow, by omega⟩

theorem subChain_borrow_eq_one_iff {as bs : List Word} (h : as.length = bs.length) :
    ((subChain 0 as bs).2 == 1) = true ↔ val as < val bs := by
  obtain ⟨hlt, hborrow, -⟩ | ⟨hle, hborrow, -⟩ := subChain_cases h
  · simp [hborrow, hlt]
  · simp [hborrow, hle]

/-- A difference modulo `m` that needs no borrow is exact. -/
theorem wrappedSub_of_le {a b m : Nat} (hle : b ≤ a) (ha : a < m) : (m + a - b) % m = a - b := by
  rw [Nat.add_sub_assoc hle, Nat.add_mod_left, Nat.mod_eq_of_lt (by omega)]

/-- With a borrow the difference is below `m` already. -/
theorem wrappedSub_of_lt {a b m : Nat} (hlt : a < b) (hm : 0 < m) : (m + a - b) % m = m + a - b :=
  Nat.mod_eq_of_lt (by omega)

theorem val_subChain {as bs : List Word} (h : as.length = bs.length) :
    val (subChain 0 as bs).1 = (2 ^ (64 * as.length) + val as - val bs) % 2 ^ (64 * as.length) := by
  obtain ⟨hlt, -, hval⟩ | ⟨hle, -, hval⟩ := subChain_cases h
  · rw [hval, wrappedSub_of_lt hlt (by positivity)]
  · rw [hval, wrappedSub_of_le hle (val_lt as)]

/-! ## The product -/

theorem mulWords_comm (n : Nat) (a b : List Word) : mulWords n a b = mulWords n b a := by
  rw [mulWords, mulWords, Nat.mul_comm]

/-! ## The commands once their checks pass -/

/-- The end of a command that raises no error, given the value of its words and when they wrapped. -/
theorem finishOr_wrote {s : State} {rd v : Nat} {ws : List Word} {enable wrapped : Bool} {P : Prop}
    (hrd : rd < s.regs.length) (hlen : ws.length = s.params.n) (hval : val ws = v) (hwrapped : wrapped = true ↔ P)
    (hno : enable = false ∨ ¬ P) (e : Error) (op : Op) :
    WroteResult rd v P s (s.finishOr enable e op rd ws wrapped) := by
  have hnoError : enable = false ∨ wrapped = false :=
    hno.imp_right fun hP => Bool.eq_false_iff.mpr (mt hwrapped.mp hP)
  rw [finishOr_eq_finish hnoError, ← hval, ← propext hwrapped]
  exact finish_wrote s rd ws wrapped hrd hlen

/-- A source operand whose words are defined reads the same in both places (R22). -/
theorem src1_eq_src2 {s : State} {r : Nat} (h : s.defined r) : s.src1 r = s.src2 r :=
  (readReg_defined s Config.Site.rs1 r h).trans (readReg_defined s Config.Site.rs2 r h).symm

section
variable {s : State} {rd rs1 rs2 : Nat} (hrd : rd < s.params.nreg) (hrs1 : rs1 < s.params.nreg)
  (hrs2 : rs2 < s.params.nreg)

include hrd hrs1 hrs2

theorem badRegs_triple_eq_false : s.badRegs [rd, rs1, rs2] = false := by
  simp [badRegs_eq_false, hrd, hrs1, hrs2]

theorem exec_add_of_checks : exec (.add rd rs1 rs2) s = .next (s.finishOr s.ctrl.ofe .overflow .add rd
    (addChain 0 (s.src1 rs1) (s.src2 rs2)).1 ((addChain 0 (s.src1 rs1) (s.src2 rs2)).2 == 1)) := by
  rw [exec, execAdd, badRegs_triple_eq_false hrd hrs1 hrs2]
  rfl

theorem exec_sub_of_checks : exec (.sub rd rs1 rs2) s = .next (s.finishOr s.ctrl.ufe .underflow .sub rd
    (subChain 0 (s.src1 rs1) (s.src2 rs2)).1 ((subChain 0 (s.src1 rs1) (s.src2 rs2)).2 == 1)) := by
  rw [exec, execSub, badRegs_triple_eq_false hrd hrs1 hrs2]
  rfl

theorem exec_mul_of_checks : exec (.mul rd rs1 rs2) s = .next (s.finishOr s.ctrl.ofe .overflow .mul rd
    (mulWords s.params.n (s.src1 rs1) (s.src2 rs2)).1 (mulWords s.params.n (s.src1 rs1) (s.src2 rs2)).2) := by
  rw [exec, execMul, badRegs_triple_eq_false hrd hrs1 hrs2]
  rfl

/-- Two defined factors can be exchanged, in the result and in the flags (R144). -/
theorem exec_mul_comm (h1 : s.defined rs1) (h2 : s.defined rs2) :
    exec (.mul rd rs1 rs2) s = exec (.mul rd rs2 rs1) s := by
  rw [exec_mul_of_checks hrd hrs1 hrs2, exec_mul_of_checks hrd hrs2 hrs1, src1_eq_src2 h1, ← src1_eq_src2 h2,
    mulWords_comm]

variable (hinv : s.Inv)

include hinv

omit hrd in
theorem length_src1_eq_length_src2 : (s.src1 rs1).length = (s.src2 rs2).length :=
  (Inv.length_src1 hinv hrs1).trans (Inv.length_src2 hinv hrs2).symm

/-- ADD writes the sum modulo `2^M`, with W its carry, where a carry is no error (R131). -/
theorem exec_add_wrote (hno : s.ctrl.ofe = false ∨ s.val1 rs1 + s.val2 rs2 < 2 ^ s.params.bits) :
    ∃ t, exec (.add rd rs1 rs2) s = .next t ∧
      WroteResult rd ((s.val1 rs1 + s.val2 rs2) % 2 ^ s.params.bits)
        (2 ^ s.params.bits ≤ s.val1 rs1 + s.val2 rs2) s t := by
  have hlen := length_src1_eq_length_src2 hrs1 hrs2 hinv
  obtain ⟨-, hval⟩ := addChain_eq_div_mod hlen
  have hcarry := addChain_carry_eq_one_iff hlen
  rw [Inv.length_src1 hinv hrs1] at hval hcarry
  exact ⟨_, exec_add_of_checks hrd hrs1 hrs2, finishOr_wrote (Inv.lt_length hinv hrd)
    ((length_addChain 0 _ _ hlen).trans (Inv.length_src1 hinv hrs1)) hval.symm hcarry (hno.imp_right not_le.mpr) _ _⟩

/-- SUB writes the difference modulo `2^M`, with W its borrow, where a borrow is no error (R136). -/
theorem exec_sub_wrote (hno : s.ctrl.ufe = false ∨ s.val2 rs2 ≤ s.val1 rs1) :
    ∃ t, exec (.sub rd rs1 rs2) s = .next t ∧
      WroteResult rd ((2 ^ s.params.bits + s.val1 rs1 - s.val2 rs2) % 2 ^ s.params.bits)
        (s.val1 rs1 < s.val2 rs2) s t := by
  have hlen := length_src1_eq_length_src2 hrs1 hrs2 hinv
  have hval := val_subChain hlen
  rw [Inv.length_src1 hinv hrs1] at hval
  exact ⟨_, exec_sub_of_checks hrd hrs1 hrs2, finishOr_wrote (Inv.lt_length hinv hrd)
    ((length_subChain 0 _ _ hlen).trans (Inv.length_src1 hinv hrs1)) hval (subChain_borrow_eq_one_iff hlen)
    (hno.imp_right not_lt.mpr) _ _⟩

/-- MUL writes the product modulo `2^M`, with W saying that it does not fit, where that is no error (R140, R143). -/
theorem exec_mul_wrote (hno : s.ctrl.ofe = false ∨ s.val1 rs1 * s.val2 rs2 < 2 ^ s.params.bits) :
    ∃ t, exec (.mul rd rs1 rs2) s = .next t ∧
      WroteResult rd (s.val1 rs1 * s.val2 rs2 % 2 ^ s.params.bits)
        (2 ^ s.params.bits ≤ s.val1 rs1 * s.val2 rs2) s t := by
  obtain ⟨hval, hwrapped⟩ := mulWords_val s.params.n (s.src1 rs1) (s.src2 rs2)
  exact ⟨_, exec_mul_of_checks hrd hrs1 hrs2, finishOr_wrote (Inv.lt_length hinv hrd) (length_mulWords _ _ _) hval hwrapped
    (hno.imp_right not_le.mpr) _ _⟩

/-- A product that fits is written as it is, with W = 0, whatever OFE is (R143). -/
theorem exec_mul_wrote_of_fits {p : Nat} (hp : s.val1 rs1 * s.val2 rs2 = p) (hfits : p < 2 ^ s.params.bits) :
    ∃ t, exec (.mul rd rs1 rs2) s = .next t ∧ WroteResult rd p False s t := by
  subst hp
  obtain ⟨t, hexec, hwrote⟩ := exec_mul_wrote hrd hrs1 hrs2 hinv (.inr hfits)
  rw [Nat.mod_eq_of_lt hfits, eq_false (not_le.mpr hfits)] at hwrote
  exact ⟨t, hexec, hwrote⟩

end

/-- MUL raises INDEX or OVERFLOW or no error, in every state (R144, R201, R203). -/
theorem exec_mul_err {s t : State} {rd rs1 rs2 : Nat} (h : exec (.mul rd rs1 rs2) s = .next t) :
    t.status.err = Error.index.code ∨ t.status.err = Error.overflow.code ∨ t.status.err = s.status.err := by
  rw [exec, execMul] at h
  split at h
  · cases h
    exact .inl rfl
  · cases h
    obtain ⟨-, -, hraise⟩ | ⟨-, hfinish⟩ := finishOr_cases s s.ctrl.ofe .overflow .mul rd
      (mulWords s.params.n (s.src1 rs1) (s.src2 rs2)).1 (mulWords s.params.n (s.src1 rs1) (s.src2 rs2)).2
    · exact .inr (.inl (by rw [hraise, State.raise_err]))
    · exact .inr (.inr (by rw [hfinish, State.finish_err]))

/-! ## The obligations -/

/-- Settles O23: the adder's words and carry out are remainder and quotient of the sum, and the carry between words is the
quotient of the sum of two words and a carry. -/
theorem addClosedFormAndCarries : Obligations.AddClosedFormAndCarries := by
  refine ⟨fun s rd rs1 rs2 hinv hrd hrs1 hrs2 hno => exec_add_wrote hrd hrs1 hrs2 hinv hno, fun c a b as bs hc => ?_⟩
  refine ⟨(a.toNat + b.toNat + c) / 2 ^ 64, ?_, ?_, carry_eq_twoStep_overflow hc a b⟩ <;> rw [addChain_cons]

/-- Settles O24: the subtractor's words are the difference modulo `2^M`, and its borrow out tells the two cases apart. -/
theorem subClosedForm : Obligations.SubClosedForm := by
  intro s rd rs1 rs2 hinv hrd hrs1 hrs2 hno
  obtain ⟨t, hexec, hwrote⟩ := exec_sub_wrote hrd hrs1 hrs2 hinv hno
  refine ⟨t, hexec, hwrote, fun hle => ?_, fun hlt => ?_⟩
  · exact hwrote.value.trans (wrappedSub_of_le hle (Inv.val1_lt hinv hrs1))
  · exact hwrote.value.trans (wrappedSub_of_lt hlt (by positivity))

/-- Settles O27: a product by 0 or by 1 fits, the product of words is commutative, a defined register reads the same as
either factor, and no end of MUL is UNDERFLOW. -/
theorem mulCornerCases : Obligations.MulCornerCases := by
  refine ⟨fun s rd r q hinv hrd hr hq =>
      ⟨fun hzero => ?_, fun hone => ?_, exec_mul_comm hrd hr hq, fun hdef hno => ?_⟩,
    mulWords_comm, fun s t rd r q h hunder => ?_⟩
  · exact exec_mul_wrote_of_fits hrd hr hq hinv (mul_eq_zero.mpr hzero) (by positivity)
  · exact exec_mul_wrote_of_fits hrd hr hq hinv (by rw [hone, Nat.mul_one]) (Inv.val1_lt hinv hr)
  · have hsquare : s.val1 r ^ 2 = s.val1 r * s.val2 r := by
      rw [pow_two, State.val1, State.val2, src1_eq_src2 hdef]
    rw [hsquare] at hno ⊢
    exact exec_mul_wrote hr hr hr hinv hno
  · obtain herr | herr | herr := exec_mul_err h
    · exact absurd (herr.symm.trans hunder) (by decide)
    · exact absurd (herr.symm.trans hunder) (by decide)
    · exact herr.symm.trans hunder

end Sys2Proof.Machine
end

section
/-! PROOFS. Binary to decimal (42_decimal.md): one step of DEC's loop on the digits of a quotient, the index of the first
significant digit, what DEC leaves in the digit buffer, and the obligations `NoDigitOverflowsInDec` and
`DeclenTrimsLeadingZeros`. -/

namespace Sys2Proof.Machine

open Sys2Proof

/-! ## One step of the loop -/

theorem natBit_le_one (a j : Nat) : natBit a j ≤ 1 := Nat.le_of_lt_succ (Nat.mod_lt _ (by decide))

/-- The bit that step (2) adds takes twice one quotient to the next one (R162). -/
theorem two_mul_div_add_natBit (a j : Nat) : 2 * (a / 2 ^ (j + 1)) + natBit a j = a / 2 ^ j := by
  rw [pow_succ, ← Nat.div_div_eq_div_mul, natBit, Nat.div_add_mod]

theorem lastDigit_cons_cons (d e : Nat) (ds : List Nat) : lastDigit (d :: e :: ds) = lastDigit (e :: ds) := by
  simp [lastDigit]

/-- Every digit but the last counts a multiple of 10, so the last one tells the parity. -/
theorem digitsVal_mod_two (ds : List Nat) : digitsVal ds % 2 = lastDigit ds % 2 := by
  induction ds using addToLast.induct with
  | case1 => rfl
  | case2 d => simp [digitsVal, lastDigit]
  | case3 d e ds ih =>
    have heven : d * 10 ^ (e :: ds).length % 2 = 0 := by
      rw [List.length_cons, pow_succ, ← Nat.mul_assoc]
      omega
    rw [digitsVal, lastDigit_cons_cons, ← ih]
    omega

/-- A digit string whose number has one digit less begins with 0 (R163). -/
theorem headD_eq_zero_of_digitsVal_lt {ds : List Nat} (h : digitsVal ds < 10 ^ (ds.length - 1)) : ds.headD 0 = 0 := by
  cases ds with
  | nil => rfl
  | cons d ds =>
    rw [digitsVal, List.length_cons, Nat.add_sub_cancel] at h
    by_contra hd
    have hle := Nat.le_mul_of_pos_left (10 ^ ds.length) (Nat.pos_of_ne_zero hd)
    exact absurd (hle.trans (Nat.le_add_right _ _)) (not_le.mpr h)

/-- Doubling loses no carry where twice the number still fits the digits (R163). -/
theorem doubleDigits_of_fits {ds : List Nat} (h : AllDigits ds) (hfit : 2 * digitsVal ds < 10 ^ ds.length) :
    (doubleDigits ds).2 = 0 ∧ digitsVal (doubleDigits ds).1 = 2 * digitsVal ds := by
  obtain ⟨hval, -, hcarry⟩ := doubleDigits_val ds h
  obtain hzero | hone := Nat.le_one_iff_eq_zero_or_eq_one.mp hcarry
  · exact ⟨hzero, by simpa [hzero] using hval⟩
  · rw [hone] at hval
    omega

/-! ## The first significant digit -/

/-- Where a digit is not 0, the digit at the trimmed string's start is not (R161). -/
theorem getD_firstDigit_ne_zero {ds : List Nat} (h : ∃ d ∈ ds, d ≠ 0) : ds.getD (firstDigit ds) 0 ≠ 0 := by
  induction ds using firstDigit.induct with
  | case1 => simp at h
  | case2 d => simpa [firstDigit] using h
  | case3 e ds ih => simpa [firstDigit] using ih (by simpa using h)
  | case4 d e ds hd => simp [firstDigit, hd]

theorem getD_of_forall_mem {P : Nat → Prop} {ds : List Nat} (h : ∀ d ∈ ds, P d) (h0 : P 0) (k : Nat) :
    P (ds.getD k 0) := by
  by_cases hk : k < ds.length
  · rw [List.getD_eq_getElem ds 0 hk]
    exact h _ (List.getElem_mem hk)
  · rwa [List.getD_eq_default ds 0 (not_lt.mp hk)]

theorem firstDigit_of_all_zero {ds : List Nat} (hne : ds ≠ []) (h : ∀ d ∈ ds, d = 0) :
    firstDigit ds = ds.length - 1 := by
  have hlt := firstDigit_lt ds hne
  have hzero : ds.getD (firstDigit ds) 0 = 0 := getD_of_forall_mem h rfl _
  have hlast := mt (getD_firstDigit ds) (not_not.mpr hzero)
  omega

theorem asciiDigit_eq_zero_iff {d : Nat} (h : d ≤ 9) : asciiDigit d = 0x30#8 ↔ d = 0 := by
  rw [asciiDigit, ← BitVec.toNat_inj, BitVec.toNat_ofNat, BitVec.toNat_ofNat]
  omega

/-! ## What DEC leaves in the digit buffer -/

/-- The digits that DEC makes of `b[r]` (R160). -/
def State.digitsOf (s : State) (r : Nat) : List Nat := decDigits s.params.bits s.params.dlen (s.val1 r)

theorem exec_dec_of_checks {s : State} {r : Nat} (hr : r < s.params.nreg) :
    exec (.dec r) s = .next (s.writeDigits ((s.digitsOf r).map asciiDigit)
      (BitVec.ofNat 64 (s.params.dlen - firstDigit (s.digitsOf r)))).complete := by
  have hbad : s.badRegs [r] = false := by simp [badRegs_eq_false, hr]
  rw [exec, execDec, hbad]
  rfl

theorem State.length_digitsOf (s : State) (r : Nat) : (s.digitsOf r).length = s.params.dlen := length_decDigits _ _ _

/-- A register's value has at most DLEN - 1 digits (R9). -/
theorem State.Inv.val1_lt_ten_pow {s : State} (h : s.Inv) {r : Nat} (hr : r < s.params.nreg) :
    s.val1 r < 10 ^ (s.params.dlen - 1) := by
  obtain ⟨-, hfit, -⟩ := dlen_spec s.params
  exact (Inv.val1_lt h hr).trans hfit

/-- The digits are decimal and stand for the register's value (R162). -/
theorem State.Inv.digitsOf_val {s : State} (h : s.Inv) {r : Nat} (hr : r < s.params.nreg) :
    digitsVal (s.digitsOf r) = s.val1 r ∧ AllDigits (s.digitsOf r) := by
  obtain ⟨hdlen, -⟩ := dlen_spec s.params
  exact decDigits_val _ _ _ (by omega) (Inv.val1_lt h hr)
    ((h.val1_lt_ten_pow hr).trans_le (Nat.pow_le_pow_right (by decide) (Nat.sub_le _ _)))

/-- The first digit is 0, so the trimmed string starts after it, and it is not empty (R161). -/
theorem State.Inv.firstDigit_digitsOf {s : State} (h : s.Inv) {r : Nat} (hr : r < s.params.nreg) :
    0 < firstDigit (s.digitsOf r) ∧ firstDigit (s.digitsOf r) < s.params.dlen := by
  obtain ⟨hdlen, -⟩ := dlen_spec s.params
  obtain ⟨hval, -⟩ := h.digitsOf_val hr
  have hlen := s.length_digitsOf r
  refine ⟨firstDigit_pos _ (by omega) ?_, ?_⟩
  · rw [hval, hlen]
    exact h.val1_lt_ten_pow hr
  · rw [← hlen]
    exact firstDigit_lt _ (List.ne_nil_of_length_pos (by omega))

/-- A byte of the digit window once the whole buffer is written (R52, R160). -/
theorem digitByte_writeDigits (s : State) {ds : List Nat} (hlen : ds.length = s.params.dlen) (len : Word) {k : Nat}
    (hk : k < s.params.dlen) :
    (s.writeDigits (ds.map asciiDigit) len).complete.digitByte k = asciiDigit (ds.getD k 0) := by
  have hget : Memory.get? (Memory.ofBytes 0 (ds.map asciiDigit)) k = some (asciiDigit (ds.getD k 0)) := by
    simp [get?_ofBytes, hlen, hk]
  simp [State.digitByte, hk, hget]

/-! ## The obligations -/

/-- Settles O31: all numbers of the step are at most `A`, which has at most DLEN - 1 digits. -/
theorem noDigitOverflowsInDec : Obligations.NoDigitOverflowsInDec := by
  intro p a j ds ha hlen hdigits hval
  obtain ⟨hdlen, hfit, -⟩ := dlen_spec p
  have hstep := two_mul_div_add_natBit a j
  have hle : a / 2 ^ j ≤ a := Nat.div_le_self a (2 ^ j)
  have hpow : 10 ^ (p.dlen - 1) ≤ 10 ^ p.dlen := Nat.pow_le_pow_right (by decide) (Nat.sub_le _ _)
  obtain ⟨hcarry, hdouble⟩ := doubleDigits_of_fits hdigits (by rw [hlen]; omega)
  obtain ⟨-, hdoubled, -⟩ := doubleDigits_val ds hdigits
  have hlast := doubleDigits_last ds hdigits
  have hdoubledLen := (length_doubleDigits ds).trans hlen
  have hadd : digitsVal (addToLast (natBit a j) (doubleDigits ds).1) = a / 2 ^ j := by
    rw [addToLast_val _ _ (List.ne_nil_of_length_pos (by omega)), hdouble, hval, hstep]
  refine ⟨?_, hlast, hcarry, headD_eq_zero_of_digitsVal_lt ?_,
    addToLast_digits _ (natBit_le_one a j) _ hdoubled hlast, hadd, headD_eq_zero_of_digitsVal_lt ?_⟩
  · rw [← digitsVal_mod_two, hdouble, Nat.mul_mod_right]
  · rw [hdoubledLen, hdouble]
    omega
  · rw [length_addToLast, hdoubledLen, hadd]
    omega

/-- Settles O30: the laws of `firstDigit`, and the bytes that DEC writes, the first of them `'0'`. -/
theorem declenTrimsLeadingZeros : Obligations.DeclenTrimsLeadingZeros := by
  refine ⟨fun ds hne => ⟨getD_before_firstDigit ds, getD_firstDigit_ne_zero, firstDigit_of_all_zero hne⟩,
    fun s r hinv hr => ?_⟩
  obtain ⟨-, hdigits⟩ := hinv.digitsOf_val hr
  obtain ⟨hpos, hlt⟩ := hinv.firstDigit_digitsOf hr
  have hdlen := dlen_lt s.params hinv.paramsLegal
  have hlen := s.length_digitsOf r
  have hdeclen : (BitVec.ofNat 64 (s.params.dlen - firstDigit (s.digitsOf r))).toNat =
      s.params.dlen - firstDigit (s.digitsOf r) := by
    rw [BitVec.toNat_ofNat]
    omega
  have htrimmed : s.params.dlen - (s.params.dlen - firstDigit (s.digitsOf r)) = firstDigit (s.digitsOf r) := by omega
  refine ⟨_, s.digitsOf r, exec_dec_of_checks hr, rfl, hlen, hdigits, hdeclen, fun k hk => ?_, ?_⟩
  · simp [replyTo_digit _ (show k < 0x10000 by omega), digitByte_writeDigits s hlen _ hk]
  rw [State.complete_declen, State.writeDigits_declen, hdeclen, htrimmed]
  refine ⟨by omega, by omega, fun k hk => ?_, fun hlong => ?_⟩
  · rw [digitByte_writeDigits s hlen _ (by omega), getD_before_firstDigit _ k hk]
    rfl
  · rw [digitByte_writeDigits s hlen _ hlt, ne_eq, asciiDigit_eq_zero_iff (getD_of_forall_mem hdigits (by decide) _)]
    exact getD_firstDigit _ (by omega)

end Sys2Proof.Machine
end

section
/-! PROOFS. The errors of a command (60_exceptions.md): when the checks of R201 fail, how a command ends whose checks pass,
and the obligations `IndexIsRaisedExactlyOutOfRange`, `UnderflowFollowsUfe`, `OverflowFollowsOfe`, `ErrorPriority` and
`ErrorsArePrecise`. -/

namespace Sys2Proof.Machine

open Sys2Proof

/-! ## The checks of R201 -/

theorem badPos_eq_true (s : State) (pos : Nat) : s.badPos pos = true ↔ s.params.n ≤ pos := decide_eq_true_iff

theorem badAmount_eq_true (n : Nat) : badAmount n = true ↔ 64 ≤ n := decide_eq_true_iff

/-- A register field out of range raises INDEX before the immediate is looked at (R207). -/
theorem exec_of_badRegs {i : Instr} {s : State} (h : s.badRegs (usedRegs i) = true) :
    exec i s = .next (s.raise .index i.op.code) := by
  cases i with
  | zero | setw | getw | len | shl | shr | add | sub | mul | dec => exact if_pos h

/-- An immediate out of range raises the same INDEX, whatever the register fields hold. -/
theorem exec_of_badImm {i : Instr} {s : State} (h : badImm s.params i) :
    exec i s = .next (s.raise .index i.op.code) := by
  cases i with
  | setw rd pos => rw [exec, execSetw, if_pos ((badPos_eq_true s pos).mpr h), ite_self]; rfl
  | getw rs1 pos => rw [exec, execGetw, if_pos ((badPos_eq_true s pos).mpr h), ite_self]; rfl
  | shl rd rs1 n => rw [exec, execShl, if_pos ((badAmount_eq_true n).mpr h), ite_self]; rfl
  | shr rd rs1 n => rw [exec, execShr, if_pos ((badAmount_eq_true n).mpr h), ite_self]; rfl
  | zero | len | add | sub | mul | dec => exact h.elim

theorem exec_of_indexCondition {i : Instr} {s : State} (h : indexCondition s.params i) :
    exec i s = .next (s.raise .index i.op.code) :=
  h.elim (fun hregs => exec_of_badRegs ((badRegs_eq_true s _).mpr hregs)) exec_of_badImm

/-! ## The end of a command whose checks pass -/

/-- How a command can end whose fields are all in range: without an error, or with the arithmetic error of its row (R202,
R203, R207). -/
inductive InRangeEnd (i : Instr) (s t : State) : Prop
  | noError (h : sameError s t)
  | overflow (h : Raised .overflow i.op.code s t) (hop : i.op ∈ [Op.add, .shl, .mul])
  | underflow (h : Raised .underflow i.op.code s t) (hop : i.op = .sub)

/-- The enabled error of a wrapped result is an error entry (R202, R203, R205). -/
theorem finishOr_raised {s : State} {enable wrapped : Bool} (henable : enable = true) (hwrapped : wrapped = true) (e : Error)
    (op : Op) (rd : Nat) (ws : List Word) : Raised e op.code s (s.finishOr enable e op rd ws wrapped) := by
  subst henable hwrapped
  exact raise_raised s e op.code

theorem finishOr_sameError_or_raised (s : State) (enable : Bool) (e : Error) (op : Op) (rd : Nat) (ws : List Word)
    (wrapped : Bool) : sameError s (s.finishOr enable e op rd ws wrapped) ∨
      Raised e op.code s (s.finishOr enable e op rd ws wrapped) := by
  obtain ⟨henable, hwrapped, -⟩ | ⟨-, hfinish⟩ := finishOr_cases s enable e op rd ws wrapped
  · exact .inr (finishOr_raised henable hwrapped e op rd ws)
  · rw [hfinish]
    exact .inl ⟨rfl, rfl⟩

/-- ADD, SHL and MUL can end in OVERFLOW only (R203). -/
theorem inRangeEnd_of_overflow {i : Instr} (hop : i.op ∈ [Op.add, .shl, .mul]) (s : State) (rd : Nat) (ws : List Word)
    (wrapped : Bool) : InRangeEnd i s (s.finishOr s.ctrl.ofe .overflow i.op rd ws wrapped) :=
  (finishOr_sameError_or_raised s s.ctrl.ofe .overflow i.op rd ws wrapped).elim .noError (.overflow · hop)

/-- SUB can end in UNDERFLOW only (R202). -/
theorem inRangeEnd_of_underflow {i : Instr} (hop : i.op = .sub) (s : State) (rd : Nat) (ws : List Word)
    (wrapped : Bool) : InRangeEnd i s (s.finishOr s.ctrl.ufe .underflow i.op rd ws wrapped) :=
  (finishOr_sameError_or_raised s s.ctrl.ufe .underflow i.op rd ws wrapped).elim .noError (.underflow · hop)

theorem exec_of_inRange {i : Instr} {s : State} (h : ¬ indexCondition s.params i) :
    ∃ t, exec i s = .next t ∧ InRangeEnd i s t := by
  obtain ⟨hregs, himm⟩ := not_or.mp h
  rw [← badRegs_eq_true] at hregs
  cases i with
  | zero | len | dec => exact ⟨_, if_neg hregs, .noError ⟨rfl, rfl⟩⟩
  | setw _ pos | getw _ pos =>
    exact ⟨_, (if_neg hregs).trans (if_neg (mt (badPos_eq_true s pos).mp himm)), .noError ⟨rfl, rfl⟩⟩
  | shr _ _ n => exact ⟨_, (if_neg hregs).trans (if_neg (mt (badAmount_eq_true n).mp himm)), .noError ⟨rfl, rfl⟩⟩
  | shl _ _ n =>
    exact ⟨_, (if_neg hregs).trans (if_neg (mt (badAmount_eq_true n).mp himm)),
      inRangeEnd_of_overflow (by simp [Instr.op]) s _ _ _⟩
  | add | mul => exact ⟨_, if_neg hregs, inRangeEnd_of_overflow (by simp [Instr.op]) s _ _ _⟩
  | sub => exact ⟨_, if_neg hregs, inRangeEnd_of_underflow rfl s _ _ _⟩

/-- The errors of a decoded command in their order (R207): INDEX if a field is out of range, else what its row allows. -/
theorem exec_end {i : Instr} {s t : State} (h : exec i s = .next t) :
    (indexCondition s.params i ∧ Raised .index i.op.code s t) ∨ (¬ indexCondition s.params i ∧ InRangeEnd i s t) := by
  by_cases hindex : indexCondition s.params i
  · obtain rfl : s.raise .index i.op.code = t := by simpa [exec_of_indexCondition hindex] using h
    exact .inl ⟨hindex, raise_raised s .index i.op.code⟩
  · obtain ⟨u, hu, hend⟩ := exec_of_inRange hindex
    obtain rfl : u = t := by simpa [hu] using h
    exact .inr ⟨hindex, hend⟩

/-! ## A wrapped result as an error -/

section
variable {s : State} {rd rs1 rs2 : Nat} (hrd : rd < s.params.nreg) (hrs1 : rs1 < s.params.nreg)
  (hinv : s.Inv)

include hrd hrs1 hinv

/-- A lost bit of SHL is OVERFLOW while OFE is 1 (R203). -/
theorem exec_shl_raised {n : Nat} (hn : n ≤ 63) (hofe : s.ctrl.ofe = true)
    (hover : 2 ^ s.params.bits ≤ s.val1 rs1 * 2 ^ n) :
    ∃ t, exec (.shl rd rs1 n) s = .next t ∧ Raised .overflow Op.shl.code s t := by
  have hlost := shlLost_bne_zero_iff hn (s.src1 rs1)
  rw [Inv.length_src1 hinv hrs1] at hlost
  exact ⟨_, exec_shl_of_checks hrd hrs1 hn, finishOr_raised hofe (hlost.mpr hover) _ _ _ _⟩

variable (hrs2 : rs2 < s.params.nreg)

include hrs2

/-- A carry out of ADD is OVERFLOW while OFE is 1 (R203). -/
theorem exec_add_raised (hofe : s.ctrl.ofe = true) (hover : 2 ^ s.params.bits ≤ s.val1 rs1 + s.val2 rs2) :
    ∃ t, exec (.add rd rs1 rs2) s = .next t ∧ Raised .overflow Op.add.code s t := by
  have hcarry := addChain_carry_eq_one_iff (length_src1_eq_length_src2 hrs1 hrs2 hinv)
  rw [Inv.length_src1 hinv hrs1] at hcarry
  exact ⟨_, exec_add_of_checks hrd hrs1 hrs2, finishOr_raised hofe (hcarry.mpr hover) _ _ _ _⟩

/-- A borrow out of SUB is UNDERFLOW while UFE is 1 (R202). -/
theorem exec_sub_raised (hufe : s.ctrl.ufe = true) (hlt : s.val1 rs1 < s.val2 rs2) :
    ∃ t, exec (.sub rd rs1 rs2) s = .next t ∧ Raised .underflow Op.sub.code s t :=
  have hborrow := subChain_borrow_eq_one_iff (length_src1_eq_length_src2 hrs1 hrs2 hinv)
  ⟨_, exec_sub_of_checks hrd hrs1 hrs2, finishOr_raised hufe (hborrow.mpr hlt) _ _ _ _⟩

omit hinv in
/-- A product that does not fit is OVERFLOW while OFE is 1 (R203). -/
theorem exec_mul_raised (hofe : s.ctrl.ofe = true) (hover : 2 ^ s.params.bits ≤ s.val1 rs1 * s.val2 rs2) :
    ∃ t, exec (.mul rd rs1 rs2) s = .next t ∧ Raised .overflow Op.mul.code s t := by
  obtain ⟨-, hwrapped⟩ := mulWords_val s.params.n (s.src1 rs1) (s.src2 rs2)
  exact ⟨_, exec_mul_of_checks hrd hrs1 hrs2, finishOr_raised hofe (hwrapped.mpr hover) _ _ _ _⟩

end

/-- A result that wrapped has W = 1. -/
theorem WroteResult.of_wrapped {rd v : Nat} {P : Prop} {s t : State} (h : WroteResult rd v P s t) (hP : P) :
    WroteResult rd v True s t := eq_true hP ▸ h

/-! ## The obligations -/

/-- Settles O34: a field out of range is the error entry INDEX, and no end of a command in range has that code. -/
theorem indexIsRaisedExactlyOutOfRange : Obligations.IndexIsRaisedExactlyOutOfRange := by
  refine fun i s => ⟨fun hindex => ⟨_, exec_of_indexCondition hindex, raise_raised s .index i.op.code⟩,
    fun hrange t h hcode => ?_⟩
  obtain ⟨hindex, -⟩ | ⟨-, hsame | hover | hunder⟩ := exec_end h
  · exact absurd hindex hrange
  · exact hsame.1.symm.trans hcode
  · exact absurd (hover.err.symm.trans hcode) (by decide)
  · exact absurd (hunder.err.symm.trans hcode) (by decide)

/-- Settles O35: SUB borrows exactly if `A < B`, and its wrapped difference is below `2^M` already. -/
theorem underflowFollowsUfe : Obligations.UnderflowFollowsUfe := by
  refine fun s rd rs1 rs2 hinv hrd hrs1 hrs2 hlt =>
    ⟨fun hufe => exec_sub_raised hrd hrs1 hinv hrs2 hufe hlt, fun hufe => ?_⟩
  obtain ⟨t, hexec, hwrote⟩ := exec_sub_wrote hrd hrs1 hrs2 hinv (.inl hufe)
  rw [wrappedSub_of_lt hlt (by positivity)] at hwrote
  exact ⟨t, hexec, hwrote.of_wrapped hlt⟩

/-- Settles O36: each of the three commands wraps as its closed form says, and the ends of the others hold no OVERFLOW of
their own. -/
theorem overflowFollowsOfe : Obligations.OverflowFollowsOfe := by
  refine ⟨fun s rd rs1 rs2 hinv hrd hrs1 hrs2 hover =>
      ⟨fun hofe => exec_add_raised hrd hrs1 hinv hrs2 hofe hover, fun hofe => ?_⟩,
    fun s rd rs1 n hinv hrd hrs1 hn hover =>
      ⟨fun hofe => exec_shl_raised hrd hrs1 hinv hn hofe hover, fun hofe => ?_⟩,
    fun s rd rs1 rs2 hinv hrd hrs1 hrs2 hover =>
      ⟨fun hofe => exec_mul_raised hrd hrs1 hrs2 hofe hover, fun hofe => ?_⟩,
    fun i s t hop h hcode => ?_⟩
  · obtain ⟨t, hexec, hwrote⟩ := exec_add_wrote hrd hrs1 hrs2 hinv (.inl hofe)
    exact ⟨t, hexec, hwrote.of_wrapped hover⟩
  · obtain ⟨t, hexec, hwrote, -⟩ := shlClosedForm s rd rs1 n hinv hrd hrs1 hn (.inl hofe)
    exact ⟨t, hexec, hwrote.of_wrapped hover⟩
  · obtain ⟨t, hexec, hwrote⟩ := exec_mul_wrote hrd hrs1 hrs2 hinv (.inl hofe)
    exact ⟨t, hexec, hwrote.of_wrapped hover⟩
  · obtain ⟨-, hindex⟩ | ⟨-, hsame | ⟨-, hthree⟩ | hunder⟩ := exec_end h
    · exact absurd (hindex.err.symm.trans hcode) (by decide)
    · exact hsame.1.symm.trans hcode
    · exact absurd hop (by revert hthree; cases i.op <;> decide)
    · exact absurd (hunder.err.symm.trans hcode) (by decide)

/-- Settles O37: decoding comes first, the checks of R201 second, the arithmetic error of the row last. -/
theorem errorPriority : Obligations.ErrorPriority := by
  intro s c herr hdue
  have hstep := step_of_due herr hdue
  have hrun {i : Instr} (hdecode : decode c = .ok i) : step s = exec i s := by rw [hstep, runCommand, hdecode]
  refine ⟨fun e hdecode => ?_, fun i hdecode hindex => ?_, fun i hdecode hrange => ?_⟩
  · exact ⟨_, hstep.trans (runCommand_of_illegal hdecode s), raise_raised s .illegal (opField c)⟩
  · rw [hrun hdecode, opField_of_decode_ok hdecode]
    exact ⟨_, exec_of_indexCondition hindex, raise_raised s .index i.op.code⟩
  · obtain ⟨t, hexec, hend⟩ := exec_of_inRange hrange
    rw [hrun hdecode, opField_of_decode_ok hdecode]
    refine ⟨t, hexec, ?_⟩
    cases hend with
    | noError h => exact .inl h
    | overflow h hop => exact .inr (.inl ⟨h, hop⟩)
    | underflow h hop => exact .inr (.inr ⟨h, hop⟩)

/-- Settles O38: every executed command completes, and each end of it that records an error is an error entry. -/
theorem errorsArePrecise : Obligations.ErrorsArePrecise := by
  intro s t c hdue h
  have hdone := step_completed_of_due hdue h
  refine ⟨hdone.busy, hdone.pending, ?_⟩
  obtain ⟨herr, -⟩ := step_cases h
  rw [step_of_due herr hdue] at h
  cases hdecode : decode c with
  | error e =>
    obtain rfl : s.raise .illegal (opField c) = t := by simpa [runCommand_of_illegal hdecode] using h
    exact .inr ⟨_, raise_raised s .illegal (opField c)⟩
  | ok i =>
    rw [runCommand, hdecode] at h
    rw [opField_of_decode_ok hdecode]
    obtain ⟨-, hindex⟩ | ⟨-, hsame | hover | hunder⟩ := exec_end h
    · exact .inr ⟨_, hindex⟩
    · exact .inl hsame
    · exact .inr ⟨_, hover⟩
    · exact .inr ⟨_, hunder⟩

end Sys2Proof.Machine
end

section
/-! PROOFS. The host during an error and its return from it (60_exceptions.md): what ERR rules out, the STATUS write with bit
15, and the obligations `CommandsAreDroppedWhileErr` and `ErrclrReturnsFromTheError`. -/

namespace Sys2Proof.Machine

open Sys2Proof

/-! ## While ERR is not 0 -/

section
variable {s : State} (h : s.Inv)

include h

/-- No command is pending while ERR is not 0 (R31, R55). -/
theorem State.Inv.pending_of_error (herr : s.status.err ≠ 0#4) : s.pending = none :=
  Option.not_isSome_iff_eq_none.mp fun hpending => herr (h.noErrorWhilePending hpending)

/-- BUSY is 0 while ERR is not 0: errors do not nest (R208). -/
theorem State.Inv.idle_of_error (herr : s.status.err ≠ 0#4) : s.status.busy = false := by
  rw [h.busyIffPending, h.pending_of_error herr, Option.isSome_none]

/-- ERR and ERROP are 0 while BUSY is 1 (R31). -/
theorem State.Inv.noError_of_busy (hbusy : s.status.busy = true) : s.status.err = 0#4 ∧ s.status.errop = 0#8 :=
  have herr := h.noErrorWhilePending (h.busyIffPending ▸ hbusy)
  ⟨herr, h.erropCleared herr⟩

end

/-! ## ERRCLR -/

/-- A STATUS write with bit 15 set (R24, R31): ERR and ERROP are 0, and bits 3 and 4 act as in any STATUS write. -/
theorem hostWrite_status_of_errclr (s : State) {v : Word} (hclr : v.getLsbD 15 = true) :
    s.hostWrite offStatus .b64 v = { s with status := { s.status with
      err := 0#4, errop := 0#8, ovr := s.status.ovr && !v.getLsbD 3, acc := s.status.acc && !v.getLsbD 4 } } := by
  rw [hostWrite_status, writeStatus_eq, if_pos hclr, if_pos hclr]

theorem bitAt_le (b : Bool) (i : Nat) : bitAt b i ≤ 2 ^ i := by
  cases b <;> simp [bitAt]

/-- ERRCLR reads 0 (R24): the fields below it end at bit 11, and ERROP begins at bit 16. -/
theorem statusWord_getLsbD_errclr (st : Status) : st.word.getLsbD 15 = false := by
  have hbusy := bitAt_le st.busy 0
  have hz := bitAt_le st.z 1
  have hw := bitAt_le st.w 2
  have hovr := bitAt_le st.ovr 3
  have hacc := bitAt_le st.acc 4
  have herr := st.err.isLt
  have hbit : st.word.toNat / 2 ^ 15 % 2 = 0 := by
    rw [statusWord_toNat]
    omega
  rw [← BitVec.testBit_toNat, Nat.testBit_eq_decide_div_mod_eq, hbit]
  rfl

/-! ## The obligations -/

/-- Settles O39: ERR drops a CMD write, and since BUSY is 0 the writes of DATA and CTRL are not dropped. -/
theorem commandsAreDroppedWhileErr : Obligations.CommandsAreDroppedWhileErr := by
  intro s v hinv herr
  have hidle := hinv.idle_of_error herr
  exact ⟨hostWrite_cmd_of_drop (.inr herr) v, hostWrite_data_of_idle hidle v, hostWrite_ctrl_of_idle hidle v,
    replyTo_status s⟩

/-- Settles O40: with an error BUSY is 0, so after ERRCLR a CMD write meets the two conditions of R55; with BUSY there is no
error to clear. -/
theorem errclrReturnsFromTheError : Obligations.ErrclrReturnsFromTheError := by
  refine ⟨fun s v w hinv herr hclr => ?_, fun s v hclr => ?_, fun s => ?_, fun s v hinv hbusy => ?_,
    fun s v hinv herr => ⟨?_, hostWrite_cmd_of_drop (.inr herr) v⟩⟩
  · have hcleared := hostWrite_status_of_errclr s hclr
    have hidle : (s.hostWrite offStatus .b64 v).status.busy = false := by
      rw [hcleared]
      exact hinv.idle_of_error herr
    have haccepted := hostWrite_cmd_of_accept hidle (by rw [hcleared]) w
    exact ⟨by rw [hcleared], by rw [hcleared], hcleared, by rw [haccepted], by rw [haccepted]⟩
  · rw [hostWrite_status_of_errclr s hclr]
    exact ⟨rfl, rfl⟩
  · rw [replyTo_status]
    exact statusWord_getLsbD_errclr s.status
  · obtain ⟨herr, herrop⟩ := hinv.noError_of_busy hbusy
    rw [hostWrite_status, writeStatus_eq]
    simp [sameError, herr, herrop]
  · exact (due_eq_none s).mpr (.inr (hinv.pending_of_error herr))

end Sys2Proof.Machine
end

section
/-! PROOFS. Decode and encode are inverse (30_encoding.md): a command as its row and the four fields of its word, and the
obligations `DecodeOfEncodeIsIdentity`, `EncodeOfDecodeIsIdentity` and `TestVectorWordsDecode`. -/

namespace Sys2Proof

/-! ## A command as its row and its fields -/

/-- The operand fields of a command word (R82). -/
structure Fields where
  rd : Nat
  rs1 : Nat
  rs2 : Nat
  imm : Nat

/-- Every number fits its field (R82). -/
def Fields.Fit (f : Fields) : Prop := f.rd < 16 ∧ f.rs1 < 16 ∧ f.rs2 < 16 ∧ f.imm < 4096

/-- The fields of a command's word, 0 where its row does not use them (R85, R86). -/
def Instr.fields : Instr → Fields
  | .zero rd => ⟨rd, 0, 0, 0⟩
  | .setw rd pos => ⟨rd, 0, 0, pos⟩
  | .getw rs1 pos => ⟨0, rs1, 0, pos⟩
  | .len rs1 => ⟨0, rs1, 0, 0⟩
  | .shl rd rs1 n => ⟨rd, rs1, 0, n⟩
  | .shr rd rs1 n => ⟨rd, rs1, 0, n⟩
  | .add rd rs1 rs2 => ⟨rd, rs1, rs2, 0⟩
  | .sub rd rs1 rs2 => ⟨rd, rs1, rs2, 0⟩
  | .mul rd rs1 rs2 => ⟨rd, rs1, rs2, 0⟩
  | .dec rs1 => ⟨0, rs1, 0, 0⟩

theorem encode_eq_enc (i : Instr) :
    encode i = enc i.op.code i.fields.rd i.fields.rs1 i.fields.rs2 i.fields.imm := by
  cases i <;> rfl

theorem build_op_fields (i : Instr) : i.op.build i.fields.rd i.fields.rs1 i.fields.rs2 i.fields.imm = i := by
  cases i <;> rfl

theorem wellFormed_iff_fit (i : Instr) : i.wellFormed = true ↔ i.fields.Fit := by
  cases i <;> simp [Instr.wellFormed, Instr.fields, Fields.Fit, fitsReg, fitsImm, and_assoc]

theorem wellFormed_build {rd rs1 rs2 imm : Nat} (hrd : rd < 16) (hrs1 : rs1 < 16) (hrs2 : rs2 < 16) (himm : imm < 4096)
    (o : Op) : (o.build rd rs1 rs2 imm).wellFormed = true := by
  cases o <;> simp [Op.build, Instr.wellFormed, fitsReg, fitsImm, hrd, hrs1, hrs2, himm]

/-- A row whose unused fields are 0 in a word loses nothing of the word in its command (R86). -/
theorem encode_build_of_unusedZero {c : Cmd} {o : Op} (h : unusedZero c o) :
    encode (o.build (cmdBits c 23 20) (cmdBits c 19 16) (cmdBits c 15 12) (cmdBits c 11 0)) =
      enc o.code (cmdBits c 23 20) (cmdBits c 19 16) (cmdBits c 15 12) (cmdBits c 11 0) := by
  cases o <;> simp_all [unusedZero, Op.build, encode]

/-! ## The obligations -/

/-- Settles O1: the word fits its row, and its fields are the numbers that the command was made of. -/
theorem decodeOfEncodeIsIdentity : Obligations.DecodeOfEncodeIsIdentity := by
  intro i h
  obtain ⟨hrd, hrs1, hrs2, himm⟩ := (wellFormed_iff_fit i).mp h
  obtain ⟨-, hrd', hrs1', hrs2', himm'⟩ := fields_enc i.op.code _ _ _ _ hrd hrs1 hrs2 himm
  rw [decode_of_fits (fits_encode h), encode_eq_enc, hrd', hrs1', hrs2', himm', build_op_fields]

/-- Settles O2: a word is the sum of its fields, and the row that it fits leaves none of them out. -/
theorem encodeOfDecodeIsIdentity : Obligations.EncodeOfDecodeIsIdentity := by
  intro c i h
  obtain ⟨o, hfits, rfl⟩ := decode_ok h
  obtain ⟨hop, hunused⟩ := (fits_iff_opField c o).mp hfits
  refine ⟨wellFormed_build (cmdBits_lt c 23 20) (cmdBits_lt c 19 16) (cmdBits_lt c 15 12) (cmdBits_lt c 11 0) o, ?_⟩
  rw [encode_build_of_unusedZero hunused, ← hop, enc_fields]

/-- Settles O4: each word is the encoding of the command it is said to decode to. -/
theorem testVectorWordsDecode : Obligations.TestVectorWordsDecode :=
  ⟨decodeOfEncodeIsIdentity (.zero 3) rfl, decodeOfEncodeIsIdentity (.setw 3 1) rfl,
    decodeOfEncodeIsIdentity (.getw 3 1) rfl, decodeOfEncodeIsIdentity (.len 3) rfl,
    decodeOfEncodeIsIdentity (.shl 3 1 4) rfl, decodeOfEncodeIsIdentity (.shr 3 1 63) rfl,
    decodeOfEncodeIsIdentity (.add 3 1 2) rfl, decodeOfEncodeIsIdentity (.sub 3 3 2) rfl,
    decodeOfEncodeIsIdentity (.mul 3 1 2) rfl, decodeOfEncodeIsIdentity (.dec 1) rfl⟩

end Sys2Proof
end

section
/-! PROOFS. The invariant (10_state.md): its three parts, one each for the register file, for BUSY, pending and the error
fields, and for the digit buffer; that every command and every host action keeps it; and the obligations
`StepKeepsInvariant` and `ResetMeetsInvariant`. -/

namespace Sys2Proof.Machine

open Sys2Proof

/-! ## The parts of the invariant -/

/-- A word that no command has written holds the placeholder (log 1). -/
def RegWord.PlaceholderOk (w : RegWord) : Prop := w.written = false → w.value = 0#64

/-- The register file is NREG registers of N words with placeholders where nothing is written (R21, R22). -/
structure FileOk (p : Params) (regs : List (List RegWord)) : Prop where
  count : regs.length = p.nreg
  words : ∀ r ∈ regs, r.length = p.n
  placeholders : ∀ r ∈ regs, ∀ w ∈ r, w.PlaceholderOk

/-- BUSY, the error fields and the latency agree with the pending command (R25, R31, R55, R204). -/
structure ControlOk (st : Status) (pending : Option Cmd) (delay : Nat) : Prop where
  busyIffPending : st.busy = pending.isSome
  noErrorWhilePending : pending.isSome = true → st.err = 0#4
  errAssigned : st.err.toNat ≤ 4
  erropCleared : st.err = 0#4 → st.errop = 0#8
  delayIdle : pending = none → delay = 0

/-- The digit buffer and DECLEN are as after reset, or as a DEC leaves them (R34, R38). -/
def State.BufferOk (s : State) : Prop := s.digitsUnwritten ∨ s.DigitsWritten

theorem State.inv_iff (s : State) : s.Inv ↔ s.params.legal = true ∧ FileOk s.params s.regs ∧
    ControlOk s.status s.pending s.delay ∧ s.BufferOk := by
  constructor
  · intro h
    exact ⟨h.paramsLegal, ⟨h.fileShape, h.regShape, h.placeholders⟩, ⟨h.busyIffPending, h.noErrorWhilePending, h.errAssigned,
      h.erropCleared, h.delayIdle⟩, h.digitBuffer⟩
  · rintro ⟨hlegal, hfile, hcontrol, hbuffer⟩
    exact ⟨hlegal, hfile.count, hfile.words, hfile.placeholders, hcontrol.busyIffPending, hcontrol.noErrorWhilePending,
      hcontrol.errAssigned, hcontrol.erropCleared, hcontrol.delayIdle, hbuffer⟩

theorem State.Inv.file {s : State} (h : s.Inv) : FileOk s.params s.regs := ((State.inv_iff s).mp h).2.1

theorem State.Inv.control {s : State} (h : s.Inv) : ControlOk s.status s.pending s.delay := ((State.inv_iff s).mp h).2.2.1

/-- The digit buffer's part reads no other field than the parameters, the buffer and DECLEN. -/
theorem State.BufferOk.congr {s t : State} (h : s.BufferOk) (hparams : t.params = s.params) (hdigits : t.digits = s.digits)
    (hdeclen : t.declen = s.declen) : t.BufferOk := by
  obtain ⟨hnone, hzero⟩ | hwritten := h
  · exact .inl ⟨hdigits.trans hnone, hdeclen.trans hzero⟩
  · obtain ⟨haddresses, hascii, hcount, hone, hbelow⟩ := hwritten
    exact .inr ⟨by rwa [hdigits, hparams], by rwa [hdigits], by rwa [hdeclen, hparams, hdigits], by rwa [hdeclen],
      by rwa [hdeclen, hparams]⟩

/-- A state with the same parameters and digits needs the other two parts only. -/
theorem State.Inv.of_sameDigits {s t : State} (h : s.Inv) (hfile : FileOk s.params t.regs)
    (hcontrol : ControlOk t.status t.pending t.delay) (hparams : t.params = s.params) (hdigits : t.digits = s.digits)
    (hdeclen : t.declen = s.declen) : t.Inv :=
  (State.inv_iff t).mpr ⟨hparams ▸ h.paramsLegal, hparams ▸ hfile, hcontrol, .congr h.digitBuffer hparams hdigits hdeclen⟩

/-- A state with the same parameters, registers and digits needs the control part only. -/
theorem State.Inv.of_control {s t : State} (h : s.Inv) (hcontrol : ControlOk t.status t.pending t.delay)
    (hparams : t.params = s.params) (hregs : t.regs = s.regs) (hdigits : t.digits = s.digits)
    (hdeclen : t.declen = s.declen) : t.Inv :=
  h.of_sameDigits (hregs ▸ h.file) hcontrol hparams hdigits hdeclen

/-! ## The register file -/

theorem placeholderOk_ofWord (v : Word) : (RegWord.ofWord v).PlaceholderOk := by
  rintro ⟨⟩

theorem FileOk.set {p : Params} {regs : List (List RegWord)} (h : FileOk p regs) (r : Nat) {ws : List RegWord}
    (hlen : ws.length = p.n) (hwords : ∀ w ∈ ws, w.PlaceholderOk) : FileOk p (regs.set r ws) := by
  refine ⟨List.length_set.trans h.count, fun q hq => ?_, fun q hq => ?_⟩ <;>
    obtain hold | rfl := List.mem_or_eq_of_mem_set hq
  · exact h.words q hold
  · exact hlen
  · exact h.placeholders q hold
  · exact hwords

/-- A register that a command has written in full (R42, R100). -/
theorem FileOk.set_written {p : Params} {regs : List (List RegWord)} (h : FileOk p regs) (r : Nat) {ws : List Word}
    (hlen : ws.length = p.n) : FileOk p (regs.set r (ws.map RegWord.ofWord)) := by
  refine h.set r (List.length_map _ |>.trans hlen) fun w hw => ?_
  obtain ⟨v, -, rfl⟩ := List.mem_map.mp hw
  exact placeholderOk_ofWord v

/-- A register of which SETW has written one word (R102). -/
theorem State.Inv.file_writeWord {s : State} (h : s.Inv) {r : Nat} (hr : r < s.params.nreg) (pos : Nat) (v : Word) :
    FileOk s.params (s.writeWord r pos v).regs := by
  refine h.file.set r (List.length_set.trans (Inv.length_reg h hr)) fun w hw => ?_
  obtain hold | rfl := List.mem_or_eq_of_mem_set hw
  · exact h.placeholders _ (Inv.reg_mem h hr) w hold
  · exact placeholderOk_ofWord v

/-! ## Commands -/

/-- The error fields of an idle state may hold any error that the block raises. -/
theorem controlOk_idle {st : Status} (hbusy : st.busy = false) (herr : st.err.toNat ≤ 4)
    (herrop : st.err = 0#4 → st.errop = 0#8) : ControlOk st none 0 :=
  ⟨hbusy, fun h => absurd h (by decide), herr, herrop, fun _ => rfl⟩

theorem Error.code_assigned (e : Error) : e.code.toNat ≤ 4 := by cases e <;> decide

theorem Error.code_ne_zero (e : Error) : e.code ≠ 0#4 := by cases e <;> decide

theorem State.Inv.raise {s : State} (h : s.Inv) (e : Error) (op : Byte) : (s.raise e op).Inv :=
  h.of_control (controlOk_idle rfl e.code_assigned fun hzero => absurd hzero e.code_ne_zero) rfl rfl rfl rfl

/-- A command that records no error leaves the control part of an idle block (R25, R39). -/
theorem State.Inv.control_of_completed {s t : State} (h : s.Inv) (hdone : Completed s t) (hsame : sameError s t)
    (hdelay : t.delay = 0) : ControlOk t.status t.pending t.delay := by
  obtain ⟨herr, herrop⟩ := hsame
  rw [hdone.pending, hdelay]
  exact controlOk_idle hdone.busy (herr ▸ h.errAssigned) (by rw [herr, herrop]; exact h.erropCleared)

theorem toNat_asciiDigit {d : Nat} (h : d ≤ 9) : (asciiDigit d).toNat = 0x30 + d := by
  rw [asciiDigit, BitVec.toNat_ofNat]
  omega

theorem digitValues_ofBytes {ds : List Nat} (h : AllDigits ds) :
    digitValues (Memory.ofBytes 0 (ds.map asciiDigit)) = ds := by
  have hbytes : digitValues (Memory.ofBytes 0 (ds.map asciiDigit)) =
      (ds.map asciiDigit).map fun b : Byte => b.toNat - 0x30 := by
    conv_rhs => rw [← ofBytes_bytes 0 (ds.map asciiDigit)]
    rw [digitValues, List.map_map]
    rfl
  rw [hbytes, List.map_map]
  refine (List.map_congr_left fun d hd => ?_).trans (List.map_id ds)
  simp [toNat_asciiDigit (h d hd)]

/-- DECLEN holds the trimmed number of digits, which fits its word (R34, R161). -/
theorem State.Inv.toNat_declen {s : State} (h : s.Inv) (r : Nat) :
    (BitVec.ofNat 64 (s.params.dlen - firstDigit (s.digitsOf r))).toNat = s.params.dlen - firstDigit (s.digitsOf r) := by
  have hdlen := dlen_lt s.params h.paramsLegal
  rw [BitVec.toNat_ofNat]
  omega

/-- What DEC leaves is a written digit buffer (R38, R160, R161). -/
theorem State.Inv.digitsWritten_dec {s : State} (h : s.Inv) {r : Nat} (hr : r < s.params.nreg) :
    (s.writeDigits ((s.digitsOf r).map asciiDigit)
      (BitVec.ofNat 64 (s.params.dlen - firstDigit (s.digitsOf r)))).complete.DigitsWritten := by
  obtain ⟨-, hdigits⟩ := h.digitsOf_val hr
  obtain ⟨hpos, hlt⟩ := h.firstDigit_digitsOf hr
  have hcount := h.toNat_declen r
  constructor <;>
    simp only [State.complete_digits, State.complete_declen, State.complete_params, State.writeDigits_digits,
      State.writeDigits_declen, State.writeDigits_params, hcount]
  · rw [ofBytes_addresses, List.length_map, State.length_digitsOf, List.range_eq_range']
  · intro c hc
    obtain ⟨-, -, hbyte⟩ := mem_ofBytes hc
    obtain ⟨d, hd, hc2⟩ := List.mem_map.mp hbyte
    rw [← hc2, toNat_asciiDigit (hdigits d hd)]
    have := hdigits d hd
    omega
  · rw [digitValues_ofBytes hdigits]
  · omega
  · omega

theorem ExecCase.inv {i : Instr} {s t : State} (hcase : ExecCase i s t) (h : s.Inv) : t.Inv := by
  have hdone := hcase.completed
  cases hcase with
  | raised e _ => exact h.raise e i.op.code
  | result rd ws b _ _ hlen =>
    exact h.of_sameDigits (h.file.set_written rd (hlen h)) (h.control_of_completed hdone ⟨rfl, rfl⟩ rfl) rfl rfl rfl
  | zero rd _ _ =>
    exact h.of_sameDigits (h.file.set_written rd List.length_replicate) (h.control_of_completed hdone ⟨rfl, rfl⟩ rfl)
      rfl rfl rfl
  | setw rd pos _ hrd _ =>
    exact h.of_sameDigits (h.file_writeWord hrd pos s.data) (h.control_of_completed hdone ⟨rfl, rfl⟩ rfl) rfl rfl rfl
  | data r v _ => exact h.of_control (h.control_of_completed hdone ⟨rfl, rfl⟩ rfl) rfl rfl rfl rfl
  | digits r ds _ hr hds =>
    subst hds
    exact (State.inv_iff _).mpr ⟨h.paramsLegal, h.file, h.control_of_completed hdone ⟨rfl, rfl⟩ rfl,
      .inr (h.digitsWritten_dec hr)⟩

/-- A command keeps the invariant, whatever its operands are. -/
theorem State.Inv.exec {s : State} (h : s.Inv) {i : Instr} {t : State} (hexec : exec i s = .next t) : t.Inv := by
  obtain ⟨u, hu, hcase⟩ := exec_cases i s
  obtain rfl : u = t := by simpa [hu] using hexec
  exact hcase.inv h

/-! ## Host actions -/

theorem resetOf_inv {p : Params} (h : p.legal = true) : (State.resetOf p).Inv := by
  refine (State.inv_iff _).mpr ⟨h, ⟨List.length_replicate, fun r hr => ?_, fun r hr w hw => ?_⟩,
    controlOk_idle rfl (Nat.zero_le 4) fun _ => rfl, .inl ⟨rfl, rfl⟩⟩
  · rw [List.eq_of_mem_replicate hr]
    exact List.length_replicate
  · rw [List.eq_of_mem_replicate hr] at hw
    rw [List.eq_of_mem_replicate hw]
    exact fun _ => rfl

/-- The reset input meets the invariant from the legal parameters alone (R231). -/
theorem State.Inv.resetInput {s : State} (h : s.Inv) : s.resetInput.Inv :=
  (resetOf_inv h.paramsLegal).of_control (controlOk_idle rfl (Nat.zero_le 4) fun _ => rfl) rfl rfl rfl rfl

section
variable {s : State} (h : s.Inv)

include h

/-- Neither Z, W, OVR and ACC nor the model's own fields are in the invariant; the latency is while it counts down. -/
theorem State.Inv.tick_delay : State.Inv { s with delay := s.delay - 1 } :=
  h.of_control ⟨h.busyIffPending, h.noErrorWhilePending, h.errAssigned, h.erropCleared,
    fun hnone => by rw [h.delayIdle hnone]⟩ rfl rfl rfl rfl

theorem State.Inv.hostRest (rest : List HostAction) : State.Inv { s with host := rest } :=
  h.of_control h.control rfl rfl rfl rfl

theorem State.Inv.hostRead (off : Offset) (width : Width) : (s.hostRead off width).Inv := by
  obtain ⟨hbusy, hpending, herr, herrop, hdelay⟩ := h.control
  rw [hostRead_eq]
  exact h.of_control ⟨hbusy, hpending, herr, herrop, hdelay⟩ rfl rfl rfl rfl

theorem State.Inv.setOvr : s.setOvr.Inv :=
  h.of_control ⟨h.busyIffPending, h.noErrorWhilePending, h.errAssigned, h.erropCleared, h.delayIdle⟩ rfl rfl rfl rfl

theorem State.Inv.setAcc : s.setAcc.Inv :=
  h.of_control ⟨h.busyIffPending, h.noErrorWhilePending, h.errAssigned, h.erropCleared, h.delayIdle⟩ rfl rfl rfl rfl

/-- A command is accepted with ERR = 0 only (R55). -/
theorem State.Inv.writeCmd (v : Word) : (s.writeCmd v).Inv := by
  obtain ⟨-, hdropped⟩ | ⟨-, herr, haccepted⟩ := writeCmd_cases s v
  · rw [hdropped]
    exact h.setOvr
  · rw [haccepted]
    exact h.of_control ⟨rfl, fun _ => herr, h.errAssigned, h.erropCleared, fun hnone => nomatch hnone⟩ rfl rfl rfl rfl

theorem State.Inv.hostWriteData (v : Word) : (s.hostWriteData v).Inv := by
  rw [State.hostWriteData]
  split
  · exact h.setOvr
  · exact h.of_control h.control rfl rfl rfl rfl

theorem State.Inv.writeCtrl (v : Word) : (s.writeCtrl v).Inv := by
  rw [State.writeCtrl]
  split
  · exact h.setOvr
  · exact h.of_control h.control rfl rfl rfl rfl

/-- Bit 15 clears ERR and ERROP together (R31). -/
theorem State.Inv.writeStatus (v : Word) : (s.writeStatus v).Inv := by
  rw [writeStatus_eq]
  cases v.getLsbD 15 with
  | false =>
    exact h.of_control ⟨h.busyIffPending, h.noErrorWhilePending, h.errAssigned, h.erropCleared, h.delayIdle⟩ rfl rfl rfl rfl
  | true =>
    exact h.of_control ⟨h.busyIffPending, fun _ => rfl, Nat.zero_le 4, fun _ => rfl, h.delayIdle⟩ rfl rfl rfl rfl

theorem State.Inv.hostWrite (off : Offset) (width : Width) (v : Word) : (s.hostWrite off width v).Inv := by
  obtain ⟨-, hw⟩ | ⟨-, ⟨-, hw⟩ | ⟨-, hw⟩ | ⟨-, hw⟩ | ⟨-, hw⟩ | ⟨-, hw⟩⟩ := hostWrite_cases s off width v <;> rw [hw]
  · exact h.setAcc
  · exact h.writeCmd v
  · exact h.hostWriteData v
  · exact h.writeStatus v
  · exact h.writeCtrl v
  · exact h

theorem State.Inv.hostStep : s.hostStep.Inv := by
  obtain ⟨-, hs⟩ | ⟨off, w, rest, -, hs⟩ | ⟨off, w, v, rest, -, hs⟩ | ⟨rest, -, ⟨-, hs⟩ | ⟨-, hs⟩⟩ | ⟨rest, -, hs⟩ :=
    hostStep_cases s <;> rw [hs]
  · exact h
  · exact (h.hostRest rest).hostRead off w
  · exact (h.hostRest rest).hostWrite off w v
  · exact h
  · exact h.hostRest rest
  · exact (h.hostRest rest).resetInput

theorem State.Inv.step {t : State} (hstep : step s = .next t) : t.Inv := by
  obtain ⟨-, ⟨c, _, -, -, rfl⟩ | ⟨_, _, -, -, hexec⟩ | ⟨-, rfl⟩⟩ := step_cases hstep
  · exact h.raise .illegal (opField c)
  · exact h.exec hexec
  · exact h.tick_delay.hostStep

end

/-! ## The obligations -/

/-- Settles O11: an ILLEGAL word, a decoded command and a step of the host each keep the parts of the invariant. -/
theorem stepKeepsInvariant : Obligations.StepKeepsInvariant := fun _ _ h hstep => h.step hstep

/-- Settles O12: the file is NREG times N unwritten words, and every other part is 0. -/
theorem resetMeetsInvariant : Obligations.ResetMeetsInvariant :=
  ⟨resetOf_inv (by decide), fun _ h => resetOf_inv h⟩

end Sys2Proof.Machine
end

section
/-! PROOFS. The step (R17, R39, R65, R230, R246): the core's turn and the host's, a pending command under the host's
accesses, and the obligations `StepExecutesTheDueCommand`, `StepPerformsTheNextHostAction`, `IdleBlockKeepsAllState`,
`PendingCommandCompletes`, `ResetValues` and `ResetAbandonsThePendingCommand`. -/

namespace Sys2Proof.Machine

open Sys2Proof

/-! ## Whose turn it is -/

theorem step_of_not_due {s : State} (herr : s.status.err.toNat ≤ 4) (hdue : s.due = none) : step s = .next s.tick := by
  have hok : ¬ s.errReserved = true := by simpa [State.errReserved] using herr
  rw [step, if_neg hok, hdue]

/-- The core's turn with a word that decodes (R39, R88). -/
theorem step_of_due_decoded {s : State} {c : Cmd} {i : Instr} (herr : s.status.err.toNat ≤ 4) (hdue : s.due = some c)
    (hdecode : decode c = .ok i) : step s = exec i s := by
  rw [step_of_due herr hdue, runCommand, hdecode]

theorem tick_of_idle {s : State} (h : s.host = []) : s.tick = { s with delay := s.delay - 1 } := by
  simp [State.tick, State.hostStep, h]

theorem tick_of_action {s : State} {a : HostAction} {rest : List HostAction} (h : s.host = a :: rest) :
    s.tick = State.perform { s with delay := s.delay - 1 } a rest := by
  simp [State.tick, State.hostStep, h]

theorem run_succ_of_next {s t : State} (h : step s = .next t) (k : Nat) : core.run (k + 1) s = core.run k t := by
  have hcore : core.step s = .next t := h
  simp only [Host.Core.run, hcore]

/-! ## A pending command while the host acts -/

/-- While BUSY is 1 no host write touches the pending command or its latency (R55, R56). -/
theorem hostWrite_pending_of_busy {s : State} (hbusy : s.status.busy = true) (off : Offset) (width : Width) (v : Word) :
    (s.hostWrite off width v).pending = s.pending ∧ (s.hostWrite off width v).delay = s.delay := by
  obtain ⟨-, hw⟩ | ⟨-, ⟨-, hw⟩ | ⟨-, hw⟩ | ⟨-, hw⟩ | ⟨-, hw⟩ | ⟨-, hw⟩⟩ := hostWrite_cases s off width v <;> rw [hw]
  · exact ⟨rfl, rfl⟩
  · rw [State.writeCmd, if_pos hbusy]
    exact ⟨rfl, rfl⟩
  · rw [State.hostWriteData, if_pos hbusy]
    exact ⟨rfl, rfl⟩
  · rw [writeStatus_eq]
    exact ⟨rfl, rfl⟩
  · rw [State.writeCtrl, if_pos hbusy]
    exact ⟨rfl, rfl⟩
  · exact ⟨rfl, rfl⟩

/-- While BUSY is 1 the host's turn takes one off the latency, or a reset abandons the command (R231, R246). -/
theorem tick_pending_of_busy {s : State} (hbusy : s.status.busy = true) :
    (s.tick.pending = none ∧ s.tick.status.busy = false) ∨ (s.tick.pending = s.pending ∧ s.tick.delay = s.delay - 1) := by
  rw [State.tick]
  obtain ⟨-, hs⟩ | ⟨off, w, rest, -, hs⟩ | ⟨off, w, v, rest, -, hs⟩ | ⟨rest, -, ⟨-, hs⟩ | ⟨hidle, -⟩⟩ | ⟨rest, -, hs⟩ :=
    hostStep_cases { s with delay := s.delay - 1 }
  · exact .inr ⟨by rw [hs], by rw [hs]⟩
  · rw [hs, hostRead_eq]
    exact .inr ⟨rfl, rfl⟩
  · rw [hs]
    exact .inr (hostWrite_pending_of_busy (s := { s with delay := s.delay - 1, host := rest }) hbusy off w v)
  · exact .inr ⟨by rw [hs], by rw [hs]⟩
  · exact Bool.noConfusion (hbusy.symm.trans hidle)
  · rw [hs]
    exact .inl ⟨rfl, rfl⟩

/-- A pending command of `d` steps of latency is gone after at most `d + 1` steps (R247). -/
theorem pending_completes {s : State} {c : Cmd} (d : Nat) (h : s.Inv) (hpending : s.pending = some c) (hd : s.delay = d) :
    ∃ k t, k ≤ d + 1 ∧ core.run k s = .next t ∧ t.pending = none ∧ t.status.busy = false := by
  induction d generalizing s with
  | zero =>
    obtain ⟨t, ht⟩ := step_next s h.errAssigned
    have hdone := step_completed_of_due ((due_eq_some s c).mpr ⟨hd, hpending⟩) ht
    exact ⟨1, t, le_refl 1, run_succ_of_next ht 0, hdone.pending, hdone.busy⟩
  | succ d ih =>
    have hbusy : s.status.busy = true := by rw [h.busyIffPending, hpending, Option.isSome_some]
    have hdue : s.due = none := (due_eq_none s).mpr (.inl (by omega))
    have hstep := step_of_not_due h.errAssigned hdue
    obtain ⟨hnone, hidle⟩ | ⟨hstays, hless⟩ := tick_pending_of_busy hbusy
    · exact ⟨1, _, by omega, run_succ_of_next hstep 0, hnone, hidle⟩
    · obtain ⟨k, t, hk, hrun, hgone⟩ := ih (h.step hstep) (hstays.trans hpending) (by omega)
      exact ⟨k + 1, t, by omega, (run_succ_of_next hstep k).trans hrun, hgone⟩

/-! ## The reset state -/

theorem statusWord_reset : Status.reset.word = 0#64 := by decide

theorem ctrlWord_reset : Ctrl.reset.word = 0#64 := by decide

/-- A register of the reset state is N unwritten words, or no register of the block (R21, R41). -/
theorem reg_resetOf (p : Params) (r : Nat) :
    (State.resetOf p).reg r = if r < p.nreg then List.replicate p.n RegWord.unwritten else [] := by
  simp only [State.reg, State.resetOf, List.getD, List.getElem?_replicate]
  split <;> rfl

theorem unwritten_of_mem_resetOf {p : Params} {r : Nat} {w : RegWord} (h : w ∈ (State.resetOf p).reg r) :
    w = RegWord.unwritten := by
  rw [reg_resetOf] at h
  split at h
  · exact List.eq_of_mem_replicate h
  · exact absurd h List.not_mem_nil

/-! ## The obligations -/

/-- Settles O7: a word that is due is run, and a placed word is due. -/
theorem stepExecutesTheDueCommand : Obligations.StepExecutesTheDueCommand :=
  ⟨fun s c _ herr hdelay hpending hdecode =>
    step_of_due_decoded herr ((due_eq_some s c).mpr ⟨hdelay, hpending⟩) hdecode,
   fun s c _ herr hdecode => step_of_due_decoded (s := s.withPending c) herr ((due_eq_some _ c).mpr ⟨rfl, rfl⟩) hdecode⟩

/-- Settles O8: without a due command the step is the tick, and the tick performs the head of the host's list. -/
theorem stepPerformsTheNextHostAction : Obligations.StepPerformsTheNextHostAction := by
  intro s herr hdue
  have hstep := step_of_not_due herr hdue
  refine ⟨fun h => ?_, fun a rest h => ?_, fun _ _ _ => rfl, fun _ _ _ _ => rfl, fun _ => rfl⟩
  · rw [hstep, tick_of_idle h]
  · rw [hstep, tick_of_action h]

/-- Settles O9: with nothing pending there is no latency that could pass. -/
theorem idleBlockKeepsAllState : Obligations.IdleBlockKeepsAllState := by
  intro s h hpending hhost
  have hdelay : s.delay - 1 = s.delay := by rw [h.delayIdle hpending]
  rw [step_of_not_due h.errAssigned ((due_eq_none s).mpr (.inr hpending)), tick_of_idle hhost, hdelay]

/-- Settles O10, by induction on the latency left. -/
theorem pendingCommandCompletes : Obligations.PendingCommandCompletes :=
  fun s _ h hpending => pending_completes s.delay h hpending rfl

/-- Settles O13: the registers are lists of unwritten words, whose read is the free value, and the rest is 0 or empty. -/
theorem resetValues : Obligations.ResetValues := by
  intro p
  refine ⟨fun r hr => ⟨?_, fun w hw => ?_⟩, rfl, statusWord_reset, ctrlWord_reset, rfl, rfl,
    fun _ => rfl, rfl⟩
  · rw [reg_resetOf, if_pos hr, List.length_replicate]
  · rw [unwritten_of_mem_resetOf hw]
    exact ⟨rfl, fun _ _ => rfl⟩

/-- Settles O14: the step is the reset input, and its registers are those of the reset state. -/
theorem resetAbandonsThePendingCommand : Obligations.ResetAbandonsThePendingCommand := by
  intro s rest herr hdue hhost
  refine ⟨_, (step_of_not_due herr hdue).trans (congrArg _ (tick_of_action hhost)), rfl, statusWord_reset, rfl,
    ctrlWord_reset, rfl, rfl, fun _ => rfl, fun r w hw => ?_, rfl, rfl⟩
  have hunwritten : w = RegWord.unwritten := unwritten_of_mem_resetOf (p := s.params) (r := r) hw
  rw [hunwritten]
  rfl

end Sys2Proof.Machine
end

section
/-! PROOFS. The commands on words (40_wordops.md): ZERO, SETW, GETW and LEN once their checks pass, the top word of a value,
and the obligations `ZeroClearsTheRegister`, `SetwWritesOneWord`, `GetwReadsOneWord` and `LenCountsSignificantWords`. -/

namespace Sys2Proof.Machine

open Sys2Proof

/-! ## The commands once their checks pass -/

theorem badPos_eq_false (s : State) (pos : Nat) : s.badPos pos = false ↔ pos < s.params.n := by
  rw [State.badPos, decide_eq_false_iff_not, not_le]

section
variable {s : State} {r : Nat} (hr : r < s.params.nreg)

include hr

theorem badRegs_singleton_eq_false : s.badRegs [r] = false := by
  simp [badRegs_eq_false, hr]

theorem exec_zero_of_checks :
    exec (.zero r) s = .next (s.writeReg r (List.replicate s.params.n 0#64)).complete := by
  rw [exec, execZero, badRegs_singleton_eq_false hr]
  rfl

theorem exec_len_of_checks :
    exec (.len r) s = .next (s.writeData (BitVec.ofNat 64 (sigWords (s.src1 r)))).complete := by
  rw [exec, execLen, badRegs_singleton_eq_false hr]
  rfl

variable {pos : Nat} (hpos : pos < s.params.n)

include hpos

theorem exec_setw_of_checks : exec (.setw r pos) s = .next (s.writeWord r pos s.data).complete := by
  rw [exec, execSetw, badRegs_singleton_eq_false hr, (badPos_eq_false s pos).mpr hpos]
  rfl

theorem exec_getw_of_checks : exec (.getw r pos) s = .next (s.writeData (s.srcWord r pos)).complete := by
  rw [exec, execGetw, badRegs_singleton_eq_false hr, (badPos_eq_false s pos).mpr hpos]
  rfl

end

/-- GETW reads the word that stands at the position (R103). -/
theorem srcWord_eq_read {s : State} {r pos : Nat} {w : RegWord} (h : (s.reg r)[pos]? = some w) :
    s.srcWord r pos = w.read s.draws (.rs1 pos) := by
  rw [State.srcWord, List.getD, h]
  rfl

/-! ## The significant words of a value -/

theorem val_append (ws vs : List Word) : val (ws ++ vs) = val ws + 2 ^ (64 * ws.length) * val vs := by
  induction ws with
  | nil => simp [val]
  | cons w ws ih =>
    rw [List.cons_append, val, val, ih, List.length_cons]
    ring

/-- The top word is not 0 exactly if the value needs all the words. -/
theorem getLastD_ne_zero_iff {ws : List Word} (hne : ws ≠ []) :
    ws.getLastD 0#64 ≠ 0#64 ↔ 2 ^ (64 * (ws.length - 1)) ≤ val ws := by
  obtain ⟨vs, w, rfl⟩ := (List.eq_nil_or_concat ws).resolve_left hne
  have hlow := val_lt vs
  have hval : val (vs.concat w) = val vs + 2 ^ (64 * vs.length) * w.toNat := by
    rw [List.concat_eq_append, val_append, val, val, Nat.mul_zero, Nat.add_zero]
  rw [hval, List.length_concat, Nat.add_sub_cancel, List.concat_eq_append, List.getLastD_concat, ne_eq, ← BitVec.toNat_inj,
    BitVec.toNat_ofNat, Nat.zero_mod]
  constructor
  · intro hw
    exact (Nat.le_mul_of_pos_right _ (Nat.pos_of_ne_zero hw)).trans (Nat.le_add_left _ _)
  · intro hle hw
    rw [hw] at hle
    omega

theorem sigWords_eq_zero_iff (ws : List Word) : sigWords ws = 0 ↔ val ws = 0 := by
  obtain ⟨hval, hsig⟩ | ⟨hle, -, hsig⟩ := sigWords_val ws
  · exact iff_of_true hsig hval
  · exact iff_of_false hsig.ne' (Nat.two_pow_pos _ |>.trans_le hle).ne'

theorem val_lt_sigWords (ws : List Word) : val ws < 2 ^ (64 * sigWords ws) := by
  obtain ⟨hval, hsig⟩ | ⟨-, hlt, -⟩ := sigWords_val ws
  · rw [hval, hsig]
    decide
  · exact hlt

/-- A value of `k + 1` words or more has more than `k` significant ones, and no other value has. -/
theorem lt_sigWords_iff (ws : List Word) (k : Nat) : k < sigWords ws ↔ 2 ^ (64 * k) ≤ val ws := by
  constructor
  · intro hk
    obtain ⟨-, hsig⟩ | ⟨hle, -, -⟩ := sigWords_val ws
    · omega
    · exact (Nat.pow_le_pow_right (by decide) (by omega)).trans hle
  · intro hle
    have hlt := (Nat.pow_lt_pow_iff_right (by decide : 1 < 2)).mp (hle.trans_lt (val_lt_sigWords ws))
    omega

theorem sigWords_le_length (ws : List Word) : sigWords ws ≤ ws.length :=
  not_lt.mp fun h => not_le.mpr (val_lt ws) ((lt_sigWords_iff ws ws.length).mp h)

theorem sigWords_eq_length_iff {ws : List Word} (hne : ws ≠ []) :
    sigWords ws = ws.length ↔ ws.getLastD 0#64 ≠ 0#64 := by
  have hle := sigWords_le_length ws
  have hpos := List.length_pos_iff.mpr hne
  rw [getLastD_ne_zero_iff hne, ← lt_sigWords_iff]
  omega

/-! ## The obligations -/

/-- Settles O15: the words of the register are written 0s, and reading another register does not see them. -/
theorem zeroClearsTheRegister : Obligations.ZeroClearsTheRegister := by
  intro s r hinv hr
  have hreg : (s.writeReg r (List.replicate s.params.n 0#64)).complete.reg r =
      (List.replicate s.params.n 0#64).map RegWord.ofWord := reg_writeReg s r _ (Inv.lt_length hinv hr)
  refine ⟨_, exec_zero_of_checks hr, exec_completed (exec_zero_of_checks hr), ⟨rfl, rfl⟩, ⟨rfl, rfl⟩, fun w hw => ?_, ?_,
    fun q hq => reg_writeReg_ne s r q _ hq, rfl, rfl, fun _ => rfl⟩
  · rw [hreg] at hw
    obtain ⟨v, -, rfl⟩ := List.mem_map.mp hw
    rfl
  · rw [State.regWords, hreg, map_value_ofWord]

/-- Settles O16: the register is the old one with one entry set. -/
theorem setwWritesOneWord : Obligations.SetwWritesOneWord := by
  intro s r pos hinv hr hpos
  have hreg : (s.writeWord r pos s.data).complete.reg r = (s.reg r).set pos (RegWord.ofWord s.data) :=
    reg_writeWord s r pos _ (Inv.lt_length hinv hr)
  refine ⟨_, exec_setw_of_checks hr hpos, exec_completed (exec_setw_of_checks hr hpos), ⟨rfl, rfl⟩, ⟨rfl, rfl⟩, ?_, fun q hq => ?_,
    fun q hq => reg_writeWord_ne s r q pos _ hq, rfl, rfl, fun _ => rfl⟩
  · rw [hreg, List.getElem?_set_self (by rw [Inv.length_reg hinv hr]; exact hpos)]
  · rw [hreg, List.getElem?_set_ne hq.symm]

/-- Settles O17: DATA is the read of the word at the position, which is its value exactly where it is written. -/
theorem getwReadsOneWord : Obligations.GetwReadsOneWord := by
  intro s r pos hinv hr hpos
  refine ⟨_, exec_getw_of_checks hr hpos, exec_completed (exec_getw_of_checks hr hpos), ⟨rfl, rfl⟩, ⟨rfl, rfl⟩, fun w hw hwritten => ?_,
    fun w hw hunwritten => ?_, rfl, rfl, fun _ => rfl⟩
  · exact (srcWord_eq_read hw).trans (read_written _ _ w hwritten)
  · refine (srcWord_eq_read hw).trans ?_
    rw [RegWord.read, hunwritten]
    rfl

/-- Settles O18: the count is at most N, so DATA holds it, and the laws of the count carry over. -/
theorem lenCountsSignificantWords : Obligations.LenCountsSignificantWords := by
  intro s r hinv hr
  obtain ⟨hnpos, hnmax, -, -⟩ := (params_legal_iff s.params).mp hinv.paramsLegal
  have hlen := Inv.length_src1 hinv hr
  have hle : sigWords (s.src1 r) ≤ s.params.n := hlen ▸ sigWords_le_length (s.src1 r)
  have htop := sigWords_eq_length_iff (ws := s.src1 r) (List.ne_nil_of_length_pos (by omega))
  rw [hlen] at htop
  have hdata : (BitVec.ofNat 64 (sigWords (s.src1 r))).toNat = sigWords (s.src1 r) := by
    rw [BitVec.toNat_ofNat]
    omega
  have hzero : BitVec.ofNat 64 (sigWords (s.src1 r)) = 0#64 ↔ s.val1 r = 0 := by
    rw [← BitVec.toNat_inj, hdata, BitVec.toNat_ofNat, Nat.zero_mod, sigWords_eq_zero_iff]
    rfl
  refine ⟨_, exec_len_of_checks hr, exec_completed (exec_len_of_checks hr), ⟨rfl, rfl⟩, ⟨rfl, rfl⟩, hzero, ?_⟩
  rw [State.complete_data, State.writeData_data, hdata]
  refine ⟨fun hval => ?_, val_lt_sigWords _, hle, htop, rfl, rfl, fun _ => rfl⟩
  have hpos := mt (sigWords_eq_zero_iff (s.src1 r)).mp hval
  exact (lt_sigWords_iff _ _).mp (by omega)

end Sys2Proof.Machine
end

section
/-! PROOFS. Commands in sequence and loops of the units (40_wordops.md, 41_arithmetic.md): a result read back by the next
command, shifts composed of legal amounts, the two loops of the multiplier, and the obligations `ShiftRoundTrip`,
`ComposedShiftsShiftByTheSum`, `MulClosedForm`, `MultiplierFormsComputeTheProduct` and `SubUndoesAdd`. -/

namespace Sys2Proof.Machine

open Sys2Proof

/-! ## Reading back what a command wrote -/

/-- A register whose words are defined reads as the words it holds (R22). -/
theorem val1_of_defined {s : State} {r : Nat} (h : s.defined r) : s.val1 r = val (s.regWords r) :=
  congrArg val (readReg_defined s Config.Site.rs1 r h)

theorem val2_of_defined {s : State} {r : Nat} (h : s.defined r) : s.val2 r = val (s.regWords r) :=
  congrArg val (readReg_defined s Config.Site.rs2 r h)

/-- A defined register reads the same value in every state that holds the same words in it. -/
theorem val2_congr {s t : State} {r : Nat} (hreg : t.reg r = s.reg r) (h : s.defined r) : t.val2 r = s.val2 r := by
  have ht : t.defined r := by rwa [State.defined, hreg]
  rw [val2_of_defined ht, val2_of_defined h, State.regWords, State.regWords, hreg]

theorem WroteResult.val1_dest {rd v : Nat} {P : Prop} {s t : State} (h : WroteResult rd v P s t) : t.val1 rd = v :=
  (val1_of_defined h.defined).trans h.value

/-! ## Composed shifts -/

theorem length_shlSteps (ns : List Nat) (ws : List Word) : (shlSteps ns ws).1.length = ws.length := by
  induction ns generalizing ws with
  | nil => rfl
  | cons n ns ih => exact (ih _).trans (length_shlWords n 0#64 ws)

theorem val_shlWords {n : Nat} (hn : n ≤ 63) (ws : List Word) :
    val (shlWords n 0#64 ws) = val ws * 2 ^ n % 2 ^ (64 * ws.length) :=
  (shlLost_shlWords_eq_div_mod hn ws).2.symm

/-- Left shifts in turn keep the product by `2^sum` modulo the width (R244). -/
theorem val_shlSteps {ns : List Nat} (hns : ∀ n ∈ ns, n ≤ 63) (ws : List Word) :
    val (shlSteps ns ws).1 = val ws * 2 ^ ns.sum % 2 ^ (64 * ws.length) := by
  induction ns generalizing ws with
  | nil => rw [shlSteps, List.sum_nil, pow_zero, Nat.mul_one, Nat.mod_eq_of_lt (val_lt ws)]
  | cons n ns ih =>
    obtain ⟨hn, hrest⟩ := List.forall_mem_cons.mp hns
    rw [shlSteps, ih hrest, length_shlWords, val_shlWords hn, List.sum_cons, pow_add, ← Nat.mul_assoc, Nat.mod_mul_mod]

/-- A product by `2^(n+k)` overflows exactly if the one by `2^n` does, or the one of what it keeps by `2^k`. -/
theorem le_mul_two_pow_add_iff (m v n k : Nat) :
    2 ^ m ≤ v * 2 ^ (n + k) ↔ 2 ^ m ≤ v * 2 ^ n ∨ 2 ^ m ≤ v * 2 ^ n % 2 ^ m * 2 ^ k := by
  rw [pow_add, ← Nat.mul_assoc]
  obtain hle | hlt := le_or_gt (2 ^ m) (v * 2 ^ n)
  · exact iff_of_true (hle.trans (Nat.le_mul_of_pos_right _ (by positivity))) (.inl hle)
  · rw [Nat.mod_eq_of_lt hlt, or_iff_right (not_le.mpr hlt)]

/-- A nonzero bit is lost in some step exactly if the whole shift loses one (R244). -/
theorem shlSteps_lost_iff {ns : List Nat} (hns : ∀ n ∈ ns, n ≤ 63) (ws : List Word) :
    (shlSteps ns ws).2 = true ↔ 2 ^ (64 * ws.length) ≤ val ws * 2 ^ ns.sum := by
  induction ns generalizing ws with
  | nil => simp [shlSteps, val_lt ws]
  | cons n ns ih =>
    obtain ⟨hn, hrest⟩ := List.forall_mem_cons.mp hns
    rw [shlSteps, Bool.or_eq_true, shlLost_bne_zero_iff hn, ih hrest, length_shlWords, val_shlWords hn, List.sum_cons,
      le_mul_two_pow_add_iff]

theorem val_shrSteps {ns : List Nat} (hns : ∀ n ∈ ns, n ≤ 63) (ws : List Word) :
    val (shrSteps ns ws) = val ws / 2 ^ ns.sum := by
  induction ns generalizing ws with
  | nil => simp [shrSteps]
  | cons n ns ih =>
    obtain ⟨hn, hrest⟩ := List.forall_mem_cons.mp hns
    rw [shrSteps, ih hrest, shrWords_val n hn, List.sum_cons, pow_add, Nat.div_div_eq_div_mul]

theorem shiftAmounts_legal (k : Nat) : ∀ n ∈ shiftAmounts k, n ≤ 63 := by
  intro n hn
  obtain hmem | hmem := List.mem_append.mp hn
  · exact (List.eq_of_mem_replicate hmem).le
  · rw [List.mem_singleton.mp hmem]
    exact (Nat.mod_lt k (by decide)).le

theorem shiftAmounts_sum (k : Nat) : (shiftAmounts k).sum = k := by
  rw [shiftAmounts, List.sum_append, List.sum_replicate, List.sum_singleton, smul_eq_mul]
  exact Nat.div_add_mod' k 63

/-! ## The loops of the multiplier -/

/-- Adding two integers of the same number of words adds their values modulo the width (R131). -/
theorem val_addChain_modEq {as bs : List Word} (h : as.length = bs.length) :
    val (addChain 0 as bs).1 ≡ val as + val bs [MOD 2 ^ (64 * as.length)] := by
  obtain ⟨-, hval⟩ := addChain_eq_div_mod h
  rw [← hval]
  exact Nat.mod_modEq _ _

/-- The loops double the multiplicand for the bits above the one they have looked at. -/
theorem val_doubled_mul_modEq (q : Nat) (sh : List Word) :
    val (shlWords 1 0#64 sh) * q ≡ val sh * (2 * q) [MOD 2 ^ (64 * sh.length)] := by
  rw [val_shlWords (by decide), pow_one, ← Nat.mul_assoc]
  exact (Nat.mod_modEq _ _).mul_right q

/-- A set bit adds the multiplicand, and the bits above it the doubled one. -/
theorem val_added_doubled_modEq {acc sh : List Word} (h : acc.length = sh.length) (q : Nat) :
    val (addChain 0 acc sh).1 + val (shlWords 1 0#64 sh) * q ≡ val acc + val sh * (1 + 2 * q)
      [MOD 2 ^ (64 * acc.length)] := by
  rw [Nat.mul_add, Nat.mul_one, ← Nat.add_assoc]
  exact (val_addChain_modEq h).add (h ▸ val_doubled_mul_modEq q sh)

/-- The long shift of the zero-skipping loop, in legal steps (R142, R244). -/
theorem val_longShift_modEq (k : Nat) (ws : List Word) :
    val (shlSteps (shiftAmounts k) ws).1 ≡ val ws * 2 ^ k [MOD 2 ^ (64 * ws.length)] := by
  rw [val_shlSteps (shiftAmounts_legal k), shiftAmounts_sum]
  exact Nat.mod_modEq _ _

/-- The low `k + 1` bits from bit `j` up are bit `j` and twice the low `k` bits above it. -/
theorem bits_from_succ (b j k : Nat) :
    b / 2 ^ j % 2 ^ (k + 1) = natBit b j + 2 * (b / 2 ^ (j + 1) % 2 ^ k) := by
  rw [pow_succ' 2 k, Nat.mod_mul, Nat.div_div_eq_div_mul, ← pow_succ, natBit]

/-- The naive loop adds the product by the bits it looks at (R141). -/
theorem mulNaiveFrom_spec (b k j : Nat) {acc sh : List Word} (h : acc.length = sh.length) :
    (mulNaiveFrom b k j acc sh).length = acc.length ∧
    val (mulNaiveFrom b k j acc sh) ≡ val acc + val sh * (b / 2 ^ j % 2 ^ k) [MOD 2 ^ (64 * acc.length)] := by
  induction k generalizing j acc sh with
  | zero => exact ⟨rfl, by rw [pow_zero, Nat.mod_one, Nat.mul_zero, Nat.add_zero]; rfl⟩
  | succ k ih =>
    have hshLen := length_shlWords 1 0#64 sh
    rw [mulNaiveFrom, bits_from_succ]
    obtain hbit | hbit := Nat.le_one_iff_eq_zero_or_eq_one.mp (natBit_le_one b j)
    · obtain ⟨hlen, hval⟩ := ih (j + 1) (h.trans hshLen.symm)
      rw [hbit, if_neg (by decide), Nat.zero_add]
      exact ⟨hlen, hval.trans ((h ▸ val_doubled_mul_modEq _ sh).add_left _)⟩
    · have haccLen := length_addChain 0 acc sh h
      obtain ⟨hlen, hval⟩ := ih (j + 1) (haccLen.trans (h.trans hshLen.symm))
      rw [haccLen] at hlen hval
      rw [hbit, if_pos rfl]
      exact ⟨hlen, hval.trans (val_added_doubled_modEq h _)⟩

/-- Below its lowest set bit a number has zeros only, and from there on it is odd. -/
theorem eq_two_pow_trailingZeros_mul_odd {m x : Nat} (h0 : x ≠ 0) (hx : x < 2 ^ m) :
    x = 2 ^ trailingZeros m x * (1 + 2 * (x / 2 ^ trailingZeros m x / 2)) := by
  induction m generalizing x with
  | zero => exact absurd (Nat.lt_one_iff.mp (by simpa using hx)) h0
  | succ m ih =>
    rw [trailingZeros]
    split
    · have hhalf := ih (x := x / 2) (by omega) (by rw [pow_succ] at hx; omega)
      rw [pow_succ', ← Nat.div_div_eq_div_mul, Nat.mul_assoc, ← hhalf]
      omega
    · rw [pow_zero, Nat.one_mul, Nat.div_one]
      omega

/-- A round of the zero-skipping loop: the multiplicand moved up to the lowest set bit, added, and doubled (R142). -/
theorem mulSkipFrom_of_ne_zero {m fuel bb : Nat} {acc sh : List Word} (h : bb ≠ 0) :
    mulSkipFrom m (fuel + 1) bb acc sh = mulSkipFrom m fuel (bb / 2 ^ trailingZeros m bb / 2)
      (addChain 0 acc (shlSteps (shiftAmounts (trailingZeros m bb)) sh).1).1
      (shlWords 1 0#64 (shlSteps (shiftAmounts (trailingZeros m bb)) sh).1) := if_neg h

/-- The zero-skipping loop adds the product by the bits of the multiplier that are left (R142). -/
theorem mulSkipFrom_spec {m fuel bb : Nat} {acc sh : List Word} (h : acc.length = sh.length) (hm : bb < 2 ^ m)
    (hfuel : bb < 2 ^ fuel) : (mulSkipFrom m fuel bb acc sh).length = acc.length ∧
    val (mulSkipFrom m fuel bb acc sh) ≡ val acc + val sh * bb [MOD 2 ^ (64 * acc.length)] := by
  induction fuel generalizing bb acc sh with
  | zero =>
    obtain rfl : bb = 0 := Nat.lt_one_iff.mp (by simpa using hfuel)
    exact ⟨rfl, by rw [Nat.mul_zero, Nat.add_zero]; rfl⟩
  | succ fuel ih =>
    obtain rfl | hne := eq_or_ne bb 0
    · have hstop : mulSkipFrom m (fuel + 1) 0 acc sh = acc := if_pos rfl
      rw [hstop]
      exact ⟨rfl, by rw [Nat.mul_zero, Nat.add_zero]⟩
    · have hodd := eq_two_pow_trailingZeros_mul_odd hne hm
      have hlong := val_longShift_modEq (trailingZeros m bb) sh
      have hlongLen := length_shlSteps (shiftAmounts (trailingZeros m bb)) sh
      rw [mulSkipFrom_of_ne_zero hne]
      generalize (shlSteps (shiftAmounts (trailingZeros m bb)) sh).1 = sh' at *
      generalize trailingZeros m bb = t at *
      have hacc : acc.length = sh'.length := h.trans hlongLen.symm
      have haccLen := length_addChain 0 acc sh' hacc
      have hless : bb / 2 ^ t / 2 ≤ bb / 2 := Nat.div_le_div_right (Nat.div_le_self bb (2 ^ t))
      obtain ⟨hlen, hval⟩ := ih (haccLen.trans (hacc.trans (length_shlWords 1 0#64 sh').symm))
        (show bb / 2 ^ t / 2 < 2 ^ m by omega) (by rw [pow_succ] at hfuel; omega)
      rw [haccLen] at hlen hval
      refine ⟨hlen, hval.trans ((val_added_doubled_modEq hacc _).trans ?_)⟩
      conv_rhs => rw [hodd, ← Nat.mul_assoc]
      exact ((h ▸ hlong).mul_right _).add_left _

/-- As many words as MUL's, with a value that is the product modulo the width, are the words of MUL. -/
theorem eq_mulWords_of_modEq {ws a b : List Word} (hlen : ws.length = a.length)
    (hval : val ws ≡ val a * val b [MOD 2 ^ (64 * a.length)]) : ws = (mulWords a.length a b).1 := by
  obtain ⟨hmul, -⟩ := mulWords_val a.length a b
  refine words_eq_of_val_eq (hlen.trans (length_mulWords _ _ _).symm) ?_
  rw [hmul, ← hval, Nat.mod_eq_of_lt (hlen ▸ val_lt ws)]

/-! ## Subtraction after addition -/

/-- Taking off what was added modulo `m` gives back the first summand. -/
theorem sub_add_mod_cancel {a b m : Nat} (ha : a < m) (hb : b < m) : (m + (a + b) % m - b) % m = a := by
  obtain hlt | hle := lt_or_ge (a + b) m
  · rw [Nat.mod_eq_of_lt hlt, show m + (a + b) - b = m + a by omega, Nat.add_mod_left, Nat.mod_eq_of_lt ha]
  · rw [Nat.mod_eq_sub_mod hle, Nat.mod_eq_of_lt (show a + b - m < m by omega), show m + (a + b - m) - b = a by omega,
      Nat.mod_eq_of_lt ha]

/-! ## The obligations -/

/-- Settles O21: a shift that loses no bit writes the exact product, and that is what the second shift divides. -/
theorem shiftRoundTrip : Obligations.ShiftRoundTrip := by
  intro s rd rs1 n hinv hrd hrs1 hn hhigh
  have hfits : s.val1 rs1 * 2 ^ n < 2 ^ s.params.bits := by
    by_contra hover
    exact (le_mul_two_pow_iff_div_ne_zero (hinv.amount_le_bits hn) _).mp (not_lt.mp hover) hhigh
  obtain ⟨t, hshl, hwrote, -⟩ := shlClosedForm s rd rs1 n hinv hrd hrs1 hn (.inr hfits)
  have hrd' : rd < t.params.nreg := by rwa [hwrote.completed.params]
  obtain ⟨u, hshr, hback⟩ := shrClosedForm t rd rd n (hinv.exec hshl) hrd' hrd' hn
  refine ⟨t, u, hshl, hshr, ?_⟩
  rw [hback.value, hwrote.val1_dest, Nat.mod_eq_of_lt hfits, Nat.mul_div_cancel _ (by positivity)]

/-- Settles O22, by induction on the list of amounts. -/
theorem composedShiftsShiftByTheSum : Obligations.ComposedShiftsShiftByTheSum :=
  ⟨fun _ ws hns => ⟨val_shlSteps hns ws, shlSteps_lost_iff hns ws, val_shrSteps hns ws⟩,
    fun k => ⟨shiftAmounts_legal k, shiftAmounts_sum k⟩⟩

/-- Settles O25: the words of MUL are the exact product cut to N words. -/
theorem mulClosedForm : Obligations.MulClosedForm :=
  fun _ _ _ _ hinv hrd hrs1 hrs2 hno => exec_mul_wrote hrd hrs1 hrs2 hinv hno

/-- Settles O26: both loops start from 0 with all bits of the multiplier to come. -/
theorem multiplierFormsComputeTheProduct : Obligations.MultiplierFormsComputeTheProduct := by
  intro a b hlen
  have hb := val_lt b
  have hzero : (List.replicate a.length 0#64).length = a.length := List.length_replicate
  obtain ⟨hnaiveLen, hnaive⟩ := mulNaiveFrom_spec (val b) (64 * b.length) 0 hzero
  obtain ⟨hskipLen, hskip⟩ := mulSkipFrom_spec hzero hb hb
  rw [hzero, val_replicate_zero, Nat.zero_add] at hnaive hskip
  rw [pow_zero, Nat.div_one, Nat.mod_eq_of_lt hb] at hnaive
  exact ⟨eq_mulWords_of_modEq (hnaiveLen.trans hzero) hnaive, eq_mulWords_of_modEq (hskipLen.trans hzero) hskip⟩

/-- Settles O28: the second summand reads the same in both commands, and the difference is taken modulo `2^M` too. -/
theorem subUndoesAdd : Obligations.SubUndoesAdd := by
  intro s rd ra rb hinv hrd hra hrb hne hdef hofe hufe
  obtain ⟨t, hadd, hsum⟩ := exec_add_wrote hrd hra hrb hinv (.inl hofe)
  have hdone := hsum.completed
  have hnreg : t.params.nreg = s.params.nreg := by rw [hdone.params]
  obtain ⟨u, hsub, hdiff⟩ := exec_sub_wrote (hnreg ▸ hrd) (hnreg ▸ hrd) (hnreg ▸ hrb) (hinv.exec hadd)
    (.inl (by rw [hdone.ctrl, hufe]))
  refine ⟨t, u, hadd, hsub, ?_⟩
  rw [hdiff.value, hdone.params, hsum.val1_dest, val2_congr (hsum.otherRegs rb hne.symm) hdef]
  exact sub_add_mod_cancel (Inv.val1_lt hinv hra) (Inv.val2_lt hinv hrb)

end Sys2Proof.Machine
end

section
/-! PROOFS. More of DEC (42_decimal.md): the classic add-3 circuit, the digits of 0 and of the greatest value, and the
obligations `DecWritesTheDecimalDigits`, `AddThreeCircuitAgrees` and `DecCornerCases`. -/

namespace Sys2Proof.Machine

open Sys2Proof

/-! ## The add-3 circuit -/

theorem addToLast_cons (b d : Nat) {ds : List Nat} (h : ds ≠ []) : addToLast b (d :: ds) = d :: addToLast b ds := by
  cases ds with
  | nil => exact absurd rfl h
  | cons e ds => rfl

/-- A digit of the circuit with the bit that enters it: what doubling leaves of it, and whether it carries (R166). -/
theorem dabbleDigit_eq_double {d k : Nat} (hd : d ≤ 9) (hk : k ≤ 1) :
    (2 * (if 5 ≤ d then d + 3 else d) + k) % 16 = (if 5 ≤ d then 2 * d - 10 else 2 * d) + k ∧
    (2 * (if 5 ≤ d then d + 3 else d) + k) / 16 = if 5 ≤ d then 1 else 0 := by
  split <;> omega

/-- Doubling carries out of a digit exactly if the digit is at least 5, whatever carry comes in. -/
theorem doubleDigits_cons_of_digit {d : Nat} {ds : List Nat} (hcarry : (doubleDigits ds).2 ≤ 1) :
    doubleDigits (d :: ds) = (((if 5 ≤ d then 2 * d - 10 else 2 * d) + (doubleDigits ds).2) :: (doubleDigits ds).1,
      if 5 ≤ d then 1 else 0) := by
  rw [doubleDigits_cons]
  split <;> split <;> simp only [Prod.mk.injEq, List.cons.injEq, and_true] <;> omega

theorem dabbleStep_cons (b d : Nat) (ds : List Nat) : dabbleStep b (d :: ds) =
    ((2 * (if 5 ≤ d then d + 3 else d) + (dabbleStep b ds).2) % 16 :: (dabbleStep b ds).1,
      (2 * (if 5 ≤ d then d + 3 else d) + (dabbleStep b ds).2) / 16) := rfl

/-- The two forms agree digit by digit from the last one up (R166). -/
theorem dabbleStep_eq {b : Nat} (hb : b ≤ 1) {ds : List Nat} (hne : ds ≠ []) (h : AllDigits ds) :
    dabbleStep b ds = (addToLast b (doubleDigits ds).1, (doubleDigits ds).2) := by
  induction ds using addToLast.induct with
  | case1 => exact absurd rfl hne
  | case2 d =>
    obtain ⟨hdigit, hcarry⟩ := dabbleDigit_eq_double (h d (List.mem_singleton_self d)) hb
    rw [dabbleStep_cons, doubleDigits_cons_of_digit (ds := []) (Nat.zero_le 1)]
    exact Prod.ext (congrArg (· :: []) hdigit) hcarry
  | case3 d e ds ih =>
    have htail : AllDigits (e :: ds) := fun x hx => h x (List.mem_cons_of_mem d hx)
    obtain ⟨-, -, hin⟩ := doubleDigits_val (e :: ds) htail
    obtain ⟨hdigit, hcarry⟩ := dabbleDigit_eq_double (h d List.mem_cons_self) hin
    have hdoubled : (doubleDigits (e :: ds)).1 ≠ [] :=
      List.ne_nil_of_length_pos (by rw [length_doubleDigits]; exact Nat.succ_pos _)
    rw [dabbleStep_cons, ih (List.cons_ne_nil e ds) htail, doubleDigits_cons_of_digit hin, hdigit, hcarry,
      addToLast_cons b _ hdoubled]

/-! ## The digits of the least and of the greatest value -/

theorem eq_zero_of_digitsVal_eq_zero {ds : List Nat} (h : digitsVal ds = 0) : ∀ d ∈ ds, d = 0 := by
  induction ds with
  | nil => exact fun _ hd => absurd hd List.not_mem_nil
  | cons d ds ih =>
    obtain ⟨hhead, htail⟩ := Nat.add_eq_zero_iff.mp h
    exact List.forall_mem_cons.mpr ⟨(Nat.mul_eq_zero.mp hhead).resolve_right (by positivity), ih htail⟩

/-- A number has no more digits than its trimmed string. -/
theorem digitsVal_lt_of_firstDigit {ds : List Nat} (h : AllDigits ds) : digitsVal ds < 10 ^ (ds.length - firstDigit ds) := by
  induction ds using firstDigit.induct with
  | case1 => decide
  | case2 d => exact digitsVal_lt [d] h
  | case3 e ds ih =>
    have htail := ih fun x hx => h x (List.mem_cons_of_mem 0 hx)
    rw [digitsVal, Nat.zero_mul, Nat.zero_add, firstDigit, if_pos rfl, List.length_cons, Nat.add_sub_add_right]
    exact htail
  | case4 d e ds hd =>
    rw [firstDigit, if_neg hd]
    exact digitsVal_lt _ h

/-- A power of 2 with a positive exponent is no power of 10. -/
theorem two_pow_ne_ten_pow {m k : Nat} (hm : 0 < m) : 2 ^ m ≠ 10 ^ k := by
  intro h
  cases k with
  | zero => exact absurd h (Nat.one_lt_two_pow hm.ne').ne'
  | succ k =>
    have hfive : 5 ∣ 2 ^ m := by
      rw [h, pow_succ]
      exact Dvd.dvd.mul_left (by decide) _
    exact absurd (Nat.prime_five.dvd_of_dvd_pow hfive) (by decide)

/-- The greatest value has DLEN - 1 digits, as `2^M` has (R9, R164). -/
theorem ten_pow_le_maxValue {p : Params} (h : p.legal = true) : 10 ^ (p.dlen - 2) ≤ 2 ^ p.bits - 1 := by
  obtain ⟨hn, -⟩ := (params_legal_iff p).mp h
  obtain ⟨-, -, hle⟩ := dlen_spec p
  have hne := two_pow_ne_ten_pow (m := p.bits) (k := p.dlen - 2) (by rw [Params.bits]; omega)
  omega

/-! ## The buffer's end -/

/-- Past the digit buffer nothing is listed, before a DEC and after one (R38). -/
theorem State.Inv.get?_of_dlen_le {s : State} (h : s.Inv) {i : Nat} (hi : s.params.dlen ≤ i) :
    Memory.get? s.digits i = none := by
  refine get?_eq_none fun hlisted => ?_
  obtain ⟨hnone, -⟩ | hwritten := h.digitBuffer
  · simp [hnone] at hlisted
  · rw [hwritten.addresses, List.mem_range] at hlisted
    omega

/-! ## The obligations -/

/-- Settles O29: the bytes laid out from address 0 are those of the digits, and there are DLEN of them. -/
theorem decWritesTheDecimalDigits : Obligations.DecWritesTheDecimalDigits := by
  intro s r hinv hr
  have hexec := exec_dec_of_checks hr
  have hlen := s.length_digitsOf r
  obtain ⟨hval, hdigits⟩ := hinv.digitsOf_val hr
  refine ⟨_, s.digitsOf r, hexec, exec_completed hexec, ⟨rfl, rfl⟩, ⟨rfl, rfl⟩, hlen, hdigits, hval, fun i hi => ?_,
    fun i hi => ?_, hinv.toNat_declen r, rfl, rfl⟩
  · simp [get?_ofBytes, hlen, hi]
  · rw [hinv.get?_of_dlen_le hi, State.Inv.get?_of_dlen_le (hinv.exec hexec) hi]

/-- Settles O32, by induction from the last digit. -/
theorem addThreeCircuitAgrees : Obligations.AddThreeCircuitAgrees := fun _ _ hb hne h => dabbleStep_eq hb hne h

/-- Settles O33: 0 has zero digits only, the greatest value is at least `10^(DLEN-2)`, and DEC writes the whole buffer. -/
theorem decCornerCases : Obligations.DecCornerCases := by
  intro s r hinv hr
  have hlen := s.length_digitsOf r
  obtain ⟨hval, hdigits⟩ := hinv.digitsOf_val hr
  obtain ⟨hpos, hlt⟩ := hinv.firstDigit_digitsOf hr
  refine ⟨fun hzero => ⟨_, exec_dec_of_checks hr, ?_, fun i hi => ?_⟩, fun hmax => ⟨_, exec_dec_of_checks hr, ?_, ?_⟩,
    fun m l => ⟨_, _, exec_dec_of_checks hr, exec_dec_of_checks (s := { s with digits := m, declen := l }) hr, rfl, rfl⟩⟩
  · have hfirst := firstDigit_of_all_zero (List.ne_nil_of_length_pos (by omega))
      (eq_zero_of_digitsVal_eq_zero (hval.trans hzero))
    rw [State.complete_declen, State.writeDigits_declen, hfirst, hlen, show s.params.dlen - (s.params.dlen - 1) = 1 by omega]
  · rw [digitByte_writeDigits s hlen _ hi,
      getD_of_forall_mem (P := (· = 0)) (eq_zero_of_digitsVal_eq_zero (hval.trans hzero)) rfl i]
    rfl
  · have hle := (ten_pow_le_maxValue hinv.paramsLegal).trans_lt
      (hmax ▸ hval ▸ digitsVal_lt_of_firstDigit hdigits)
    rw [hlen] at hle
    have hexp := (Nat.pow_lt_pow_iff_right (by decide : 1 < 10)).mp hle
    rw [State.complete_declen, State.writeDigits_declen, hinv.toNat_declen r]
    omega
  · rw [digitByte_writeDigits s hlen _ (by omega), getD_before_firstDigit _ 0 hpos]
    rfl

end Sys2Proof.Machine
end

section
/-! PROOFS. The host window (20_memory.md) and STATUS in it (10_state.md): which accesses are supported, what a reply depends
on, the fields of STATUS, and the obligations `StatusLayoutAndWrites`, `ReadsHaveNoSideEffects`, `ReadsWhileBusy`,
`DigitWindowBytes`, `MixedWidthReadsAgree`, `RegisterOffsetsTakeAlignedWords` and `DigitWindowAndUnmappedAccesses`. -/

namespace Sys2Proof.Machine

open Sys2Proof

/-! ## Which accesses are supported -/

section
variable {off : Offset}

theorem aligned64_iff (off : Offset) (width : Width) :
    aligned64 off width = true ↔ width = .b64 ∧ off.toNat % 8 = 0 := by
  rw [aligned64, Bool.and_eq_true, beq_iff_eq, beq_iff_eq]

/-- At a register's offsets reads and writes take aligned words (R53). -/
theorem supported_of_register (h : off.toNat < 0x30) (width : Width) :
    readSupported off width = aligned64 off width ∧ writeSupported off width = aligned64 off width := by
  rw [readSupported, writeSupported]
  obtain ⟨hreg, -⟩ | ⟨-, hle, -⟩ | ⟨-, hle⟩ := regionOf_cases off
  · obtain hr | hr | hr | hr | hr | hr := hreg <;> rw [hr] <;> exact ⟨rfl, rfl⟩
  · omega
  · omega

/-- In the gap nothing is supported (R54). -/
theorem unsupported_of_unmapped (hlo : 0x30 ≤ off.toNat) (hhi : off.toNat < 0x10000) (width : Width) :
    readSupported off width = false ∧ writeSupported off width = false := by
  rw [readSupported, writeSupported]
  obtain ⟨-, hlt⟩ | ⟨hr, -⟩ | ⟨-, hle⟩ := regionOf_cases off
  · omega
  · rw [hr]
    exact ⟨rfl, rfl⟩
  · omega

/-- The digit window takes byte reads and aligned word reads, and no write (R52, R54). -/
theorem supported_of_window (h : 0x10000 ≤ off.toNat) (width : Width) :
    readSupported off width = (width == .b8 || aligned64 off width) ∧ writeSupported off width = false := by
  rw [readSupported, writeSupported]
  obtain ⟨-, hlt⟩ | ⟨-, -, hlt⟩ | ⟨hr, -⟩ := regionOf_cases off
  · omega
  · omega
  · rw [hr]
    exact ⟨rfl, rfl⟩

theorem readSupported_window_iff (h : 0x10000 ≤ off.toNat) (width : Width) :
    readSupported off width = true ↔ width = .b8 ∨ (width = .b64 ∧ off.toNat % 8 = 0) := by
  rw [(supported_of_window h width).1, Bool.or_eq_true, beq_iff_eq, aligned64_iff]

/-- Outside the widths of 8 and 64 bits no read is supported anywhere (R53, R54). -/
theorem readSupported_narrow (off : Offset) {width : Width} (h8 : width ≠ .b8) (h64 : width ≠ .b64) :
    readSupported off width = false := by
  have hal : aligned64 off width = false := Bool.eq_false_iff.mpr fun h => h64 ((aligned64_iff off width).mp h).1
  obtain hlt | hge := lt_or_ge off.toNat 0x30
  · rw [(supported_of_register hlt width).1, hal]
  obtain hlt | hge' := lt_or_ge off.toNat 0x10000
  · exact (unsupported_of_unmapped hge hlt width).1
  · rw [(supported_of_window hge' width).1, hal, beq_eq_false_iff_ne.mpr h8]
    rfl

theorem hostRead_status_of_supported {width : Width} (s : State) (h : readSupported off width = true) :
    (s.hostRead off width).status = s.status := by
  rw [hostRead_supported h]

/-! ## What a reply depends on -/

/-- A byte of the window, and a word of it, is none of the registers (R51). -/
theorem window_of_regionOf_digits {i : Nat} (h : regionOf off = .digits i) : 0x10000 ≤ off.toNat := by
  obtain ⟨hr, -⟩ | ⟨hr, -⟩ | ⟨-, hle⟩ := regionOf_cases off
  · simp [h] at hr
  · simp [h] at hr
  · exact hle

/-- The reply to a supported read of an idle block does not depend on the draw, where the digits it reads are listed (R57). -/
theorem readReply_congr_draw {s : State} (hidle : s.status.busy = false) {width : Width}
    (hdigits : off.toNat < 0x10000 ∨ s.DigitsWritten) (reads : List Word) (draws : Nat) :
    State.readReply { s with reads := reads, draws := draws } off width = s.readReply off width := by
  rw [State.readReply, State.readReply]
  cases hr : regionOf off with
  | digits i =>
    have hwritten := hdigits.resolve_left (not_lt.mpr (window_of_regionOf_digits hr))
    simp only [hidle, Bool.false_eq_true, if_false,
      DigitsWritten.digitByte_congr (t := { s with reads := reads, draws := draws }) hwritten rfl rfl,
      DigitsWritten.digitsLE_congr (t := { s with reads := reads, draws := draws }) hwritten rfl rfl]
  | data | declen => simp only [hidle, Bool.false_eq_true, if_false]
  | cmd | status | ctrl | param | unmapped => rfl

/-- A repeated read replies the same (R57). -/
theorem replyTo_hostRead {s : State} (hidle : s.status.busy = false) (width : Width)
    (hdigits : off.toNat < 0x10000 ∨ s.DigitsWritten) :
    (s.hostRead off width).replyTo off width = s.replyTo off width := by
  cases hs : readSupported off width with
  | false =>
    obtain ⟨hzero, -⟩ := hostRead_unsupported (s := s) hs
    obtain ⟨hzero', -⟩ := hostRead_unsupported (s := s.hostRead off width) hs
    rw [hzero, hzero']
  | true =>
    rw [hostRead_supported hs, State.replyTo, State.replyTo, if_pos hs, if_pos hs]
    exact readReply_congr_draw hidle hdigits _ _

end

/-! ## STATUS -/

theorem writeStatus_of_no_bit (s : State) {v : Word} (h3 : v.getLsbD 3 = false) (h4 : v.getLsbD 4 = false)
    (h15 : v.getLsbD 15 = false) : s.writeStatus v = s := by
  rw [writeStatus_eq, h3, h4, h15]
  simp

theorem bitAt_eq (b : Bool) (i : Nat) : bitAt b i = b.toNat * 2 ^ i := by
  cases b <;> simp [bitAt]

theorem getLsbD_of_div_mod {w : Word} {i : Nat} {b : Bool} (h : w.toNat / 2 ^ i % 2 = b.toNat) : w.getLsbD i = b := by
  rw [← BitVec.testBit_toNat, Nat.testBit_eq_decide_div_mod_eq, h]
  cases b <;> rfl

theorem extractLsb'_of_div_mod {w : Word} {lo len : Nat} {v : BitVec len} (h : w.toNat / 2 ^ lo % 2 ^ len = v.toNat) :
    w.extractLsb' lo len = v :=
  BitVec.eq_of_toNat_eq ((toNat_extractLsb' w lo len).trans h)

/-- The fields of STATUS stand side by side (R24). -/
theorem statusWord_fields (st : Status) :
    st.word.getLsbD 0 = st.busy ∧ st.word.getLsbD 1 = st.z ∧ st.word.getLsbD 2 = st.w ∧ st.word.getLsbD 3 = st.ovr ∧
    st.word.getLsbD 4 = st.acc ∧ st.word.extractLsb' 5 3 = 0#3 ∧ st.word.extractLsb' 8 4 = st.err ∧
    st.word.extractLsb' 12 4 = 0#4 ∧ st.word.extractLsb' 16 8 = st.errop ∧ st.word.extractLsb' 24 40 = 0#40 := by
  have hbusy := st.busy.toNat_le
  have hz := st.z.toNat_le
  have hw := st.w.toNat_le
  have hovr := st.ovr.toNat_le
  have hacc := st.acc.toNat_le
  have herr := st.err.isLt
  have herrop := st.errop.isLt
  have hword := statusWord_toNat st
  simp only [bitAt_eq] at hword
  refine ⟨getLsbD_of_div_mod ?_, getLsbD_of_div_mod ?_, getLsbD_of_div_mod ?_, getLsbD_of_div_mod ?_,
    getLsbD_of_div_mod ?_, extractLsb'_of_div_mod ?_, extractLsb'_of_div_mod ?_, extractLsb'_of_div_mod ?_,
    extractLsb'_of_div_mod ?_, extractLsb'_of_div_mod ?_⟩ <;> simp only [hword, BitVec.toNat_ofNat] <;> omega

/-! ## The obligations -/

/-- Settles O48: the word of STATUS is the sum of its fields, and a write is the update of four of them. -/
theorem statusLayoutAndWrites : Obligations.StatusLayoutAndWrites :=
  ⟨statusWord_fields, replyTo_status, fun s v => (hostWrite_status s v).trans (writeStatus_eq s v)⟩

/-- Settles O53: nothing that a read changes enters its reply, and a supported write is the write of one register. -/
theorem readsHaveNoSideEffects : Obligations.ReadsHaveNoSideEffects := by
  refine ⟨hostRead_eq, fun s off width hinv hpending hdigits => ?_, fun s off width v hsupported hchanged => ?_⟩
  · have hidle : s.status.busy = false := by rw [hinv.busyIffPending, hpending, Option.isSome_none]
    exact replyTo_hostRead hidle width hdigits
  · obtain ⟨rfl, rfl | rfl | rfl | rfl | rfl | rfl⟩ := (writeSupported_iff off width).mp hsupported
    · exact .inl rfl
    · exact .inr (.inl rfl)
    · refine .inr (.inr (.inr ⟨rfl, ?_⟩))
      by_contra hbits
      simp only [not_or, Bool.not_eq_true] at hbits
      obtain ⟨h3, h4, h15⟩ := hbits
      exact hchanged ((hostWrite_status s v).trans (writeStatus_of_no_bit s h3 h4 h15))
    · exact .inr (.inr (.inl rfl))
    · exact absurd (hostWrite_declen s v) hchanged
    · exact absurd (hostWrite_param s v) hchanged

/-- Settles O54: the replies by register, with BUSY 1 and, after completion, with BUSY 0. -/
theorem readsWhileBusy : Obligations.ReadsWhileBusy := by
  intro s hbusy
  refine ⟨replyTo_status s, replyTo_ctrl s, replyTo_param s, ?_, ?_, fun i hi => ?_, fun i hi h8 => ?_, ?_, ?_⟩
  · rw [replyTo_data, if_pos hbusy]
  · rw [replyTo_declen, if_pos hbusy]
  · rw [replyTo_digit s hi, if_pos hbusy]
  · rw [replyTo_digits s hi h8, if_pos hbusy]
  · simp [replyTo_data]
  · simp [replyTo_declen]

/-- Settles O55: the reply is the byte of the window, and the access is supported as a read only. -/
theorem digitWindowBytes : Obligations.DigitWindowBytes := by
  intro s i hi
  have hwindow : 0x10000 ≤ (offDigit i).toNat := by
    rw [offDigit_toNat hi]
    omega
  have hread := (readSupported_window_iff hwindow .b8).mpr (.inl rfl)
  refine ⟨fun b hidle hlt hb => ?_, fun hidle hle => ?_, hostRead_status_of_supported s hread,
    fun width v => hostWrite_unsupported (supported_of_window hwindow width).2⟩
  · have hbyte : s.digitByte i = b := by simp [State.digitByte, hlt, hb]
    rw [replyTo_digit s hi, hidle, hbyte, BitVec.ofNat_toNat]
    rfl
  · have hbyte : s.digitByte i = 0#8 := by simp [State.digitByte, not_lt.mpr hle]
    rw [replyTo_digit s hi, hidle, hbyte]
    rfl

/-- Settles O56: a word of the window holds its bytes in little-endian places, and its reply is below `2^64`. -/
theorem mixedWidthReadsAgree : Obligations.MixedWidthReadsAgree := by
  refine ⟨fun s k j hidle hj hlt => ?_,
    fun off => ⟨readSupported_narrow off (by decide) (by decide), readSupported_narrow off (by decide) (by decide)⟩⟩
  have hword : (BitVec.ofNat 64 (s.digitsLE 8 (8 * k))).toNat = s.digitsLE 8 (8 * k) :=
    Nat.mod_eq_of_lt (digitsLE_lt s 8 (8 * k))
  have hbyte := (s.digitByte (8 * k + j)).isLt
  rw [replyTo_digits s (by omega) (by omega), replyTo_digit s hlt, hidle]
  refine extractLsb'_of_div_mod ?_
  simp only [Bool.false_eq_true, if_false, hword, digitsLE_byte s 8 (8 * k) j hj, BitVec.toNat_setWidth, BitVec.toNat_ofNat]
  omega

/-- Settles O57: below 0x30 support is alignment, for reads and writes. -/
theorem registerOffsetsTakeAlignedWords : Obligations.RegisterOffsetsTakeAlignedWords := by
  refine ⟨fun s off width v hlt hno => ?_, fun s off hlt h8 => ?_, fun s v => ⟨hostWrite_declen s v, hostWrite_param s v⟩⟩
  · obtain ⟨hread, hwrite⟩ := supported_of_register hlt width
    have hal : aligned64 off width = false := Bool.eq_false_iff.mpr (mt (aligned64_iff off width).mp hno)
    obtain ⟨hzero, hacc⟩ := hostRead_unsupported (s := s) (hread.trans hal)
    exact ⟨hzero, hacc, hostWrite_unsupported (hwrite.trans hal)⟩
  · obtain ⟨hread, hwrite⟩ := supported_of_register hlt .b64
    have hal : aligned64 off .b64 = true := (aligned64_iff off .b64).mpr ⟨rfl, h8⟩
    exact ⟨hostRead_status_of_supported s (hread.trans hal), hwrite.trans hal⟩

/-- Settles O58: the window's supported reads by width and alignment, and no support in the gap. -/
theorem digitWindowAndUnmappedAccesses : Obligations.DigitWindowAndUnmappedAccesses := by
  refine ⟨fun s off width hge => ⟨fun h => ?_, fun h => ?_⟩, fun s off width v hlo hhi => ?_⟩
  · exact hostRead_status_of_supported s ((readSupported_window_iff hge width).mpr h)
  · exact hostRead_unsupported (Bool.eq_false_iff.mpr (mt (readSupported_window_iff hge width).mp h))
  · obtain ⟨hread, hwrite⟩ := unsupported_of_unmapped hlo hhi width
    obtain ⟨hzero, hacc⟩ := hostRead_unsupported (s := s) hread
    exact ⟨hzero, hacc, hostWrite_unsupported hwrite⟩

end Sys2Proof.Machine
end

section
/-! PROOFS. Rules of the whole machine (10_state.md): the cases of a step, what each leaves of the error fields, the flags,
the registers, DATA and OVR, and the obligations `ErrHoldsTheFirstError`, `FlagsChangeOnlyWithAResult`,
`RegistersChangeOnlyAsDestination`, `WrittenWordsStayWritten`, `DataChangesOnlyByItsWriters` and `OvrRecordsDroppedWrites`. -/

namespace Sys2Proof.Machine

open Sys2Proof

/-! ## The cases of a step -/

/-- The state in which the host performs an action: one step of the latency has passed, and the action is off its list. -/
def State.hostTurn (s : State) (rest : List HostAction) : State := { s with delay := s.delay - 1, host := rest }

/-- The cases of a step from `s`: an ILLEGAL word, a decoded command, the reset input, the write of a register, or a step that
touches ACC and the model's own fields only. -/
inductive StepCase (s : State) : State → Prop
  | illegal (c : Cmd) (hdue : s.due = some c) : StepCase s (s.raise .illegal (opField c))
  | command (c : Cmd) (i : Instr) (t : State) (hdue : s.due = some c) (hrun : s.running = some i) (hcase : ExecCase i s t) :
      StepCase s t
  | reset (rest : List HostAction) (hact : s.acting = some .reset) :
      StepCase s (s.hostTurn rest).resetInput
  | write (off : Offset) (v : Word) (rest : List HostAction) (hact : s.acting = some (.write off .b64 v))
      (hoff : RegisterOffset off) :
      StepCase s ((s.hostTurn rest).hostWrite off .b64 v)
  | quiet (acc : Bool) (delay draws : Nat) (host : List HostAction) (reads : List Word) :
      StepCase s { s with
        status := { s.status with acc := acc }, delay := delay, draws := draws, host := host, reads := reads }

theorem running_of_due {s : State} {c : Cmd} {i : Instr} (hdue : s.due = some c) (hdecode : decode c = .ok i) :
    s.running = some i := by
  simp [State.running, hdue, hdecode]

theorem step_stepCase {s t : State} (h : step s = .next t) : StepCase s t := by
  obtain ⟨-, ⟨c, _, hdue, -, rfl⟩ | ⟨c, i, hdue, hdecode, hexec⟩ | ⟨hdue, rfl⟩⟩ := step_cases h
  · exact .illegal c hdue
  · obtain ⟨u, hu, hcase⟩ := exec_cases i s
    obtain rfl : u = t := by simpa [hu] using hexec
    exact .command c i u hdue (running_of_due hdue hdecode) hcase
  · obtain ⟨hact, rest, ht⟩ | ⟨off, v, hact, hoff, rest, ht⟩ | ⟨acc, delay, draws, host, reads, ht⟩ := tick_cases s hdue <;>
      rw [ht]
    · exact .reset rest hact
    · exact .write off v rest hact hoff
    · exact .quiet acc delay draws host reads

/-! ## What a command leaves alone -/

/-- A destination with flags is a destination (R42). -/
theorem destReg_of_resultDest {i : Instr} {rd : Nat} (h : resultDest i = some rd) : destReg i = some rd := by
  cases i with
  | shl | shr | add | sub | mul => exact h
  | zero | setw | getw | len | dec => exact nomatch h

/-- Flags come with a result, and Z is whether it is 0 (R26, R27). -/
theorem ExecCase.flags {i : Instr} {s t : State} (hcase : ExecCase i s t) (hinv : s.Inv) :
    sameFlags s t ∨ ∃ rd, resultDest i = some rd ∧ sameError s t ∧ (t.status.z = true ↔ val (t.regWords rd) = 0) := by
  cases hcase with
  | result rd ws b hi hrd hlen =>
    have hwrote := finish_wrote s rd ws b (Inv.lt_length hinv hrd) (hlen hinv)
    exact .inr ⟨rd, hi, hwrote.noError, by rw [hwrote.value]; exact hwrote.zFlag⟩
  | raised | zero | setw | data | digits => exact .inl ⟨rfl, rfl⟩

/-- A command without an error writes its destination, with an error no register (R42, R205). -/
theorem ExecCase.reg {i : Instr} {s t : State} (hcase : ExecCase i s t) (r : Nat) :
    t.reg r = s.reg r ∨ (destReg i = some r ∧ sameError s t) := by
  cases hcase with
  | raised | data | digits => exact .inl rfl
  | result rd ws b hi _ _ =>
    obtain rfl | hne := eq_or_ne r rd
    · exact .inr ⟨destReg_of_resultDest hi, rfl, rfl⟩
    · exact .inl (reg_writeReg_ne s rd r ws hne)
  | zero rd hi _ =>
    subst hi
    obtain rfl | hne := eq_or_ne r rd
    · exact .inr ⟨rfl, rfl, rfl⟩
    · exact .inl (reg_writeReg_ne s rd r _ hne)
  | setw rd pos hi _ _ =>
    subst hi
    obtain rfl | hne := eq_or_ne r rd
    · exact .inr ⟨rfl, rfl, rfl⟩
    · exact .inl (reg_writeWord_ne s rd r pos _ hne)

/-- Of the commands only GETW and LEN write DATA (R23). -/
theorem ExecCase.data_eq {i : Instr} {s t : State} (hcase : ExecCase i s t) :
    t.data = s.data ∨ (∃ r, i = .len r) ∨ ∃ r pos, i = .getw r pos := by
  cases hcase with
  | raised | result | zero | setw | digits => exact .inl rfl
  | data r _ hi => exact .inr (hi.imp (fun h => ⟨r, h⟩) fun h => ⟨r, h⟩)

/-! ## Written words -/

/-- Every written register word of `s` is written in `t` (R22). -/
def KeepsWritten (s t : State) : Prop := ∀ (r k : Nat) (w : RegWord), (s.reg r)[k]? = some w → w.written = true →
  ∃ w' : RegWord, (t.reg r)[k]? = some w' ∧ w'.written = true

theorem keepsWritten_of_sameRegs {s t : State} (h : sameRegs s t) : KeepsWritten s t := fun r k w hw hwritten =>
  ⟨w, by rw [reg_congr h r, hw], hwritten⟩

/-- A register written in full has no unwritten word, so none of its words can become unwritten. -/
theorem keepsWritten_writeReg {s : State} (hinv : s.Inv) {rd : Nat} (hrd : rd < s.params.nreg) {ws : List Word}
    (hlen : ws.length = s.params.n) : KeepsWritten s (s.writeReg rd ws) := by
  intro r k w hw hwritten
  obtain rfl | hne := eq_or_ne r rd
  · obtain ⟨hk, -⟩ := List.getElem?_eq_some_iff.mp hw
    rw [Inv.length_reg hinv hrd, ← hlen] at hk
    refine ⟨RegWord.ofWord ws[k], ?_, rfl⟩
    rw [reg_writeReg s r ws (Inv.lt_length hinv hrd), List.getElem?_map, List.getElem?_eq_getElem hk]
    rfl
  · exact ⟨w, by rw [reg_writeReg_ne s rd r ws hne, hw], hwritten⟩

theorem keepsWritten_writeWord {s : State} (hinv : s.Inv) {rd : Nat} (hrd : rd < s.params.nreg) (pos : Nat) (v : Word) :
    KeepsWritten s (s.writeWord rd pos v) := by
  intro r k w hw hwritten
  obtain rfl | hne := eq_or_ne r rd
  · rw [reg_writeWord s r pos v (Inv.lt_length hinv hrd)]
    obtain rfl | hpos := eq_or_ne pos k
    · obtain ⟨hk, -⟩ := List.getElem?_eq_some_iff.mp hw
      exact ⟨_, List.getElem?_set_self hk, rfl⟩
    · exact ⟨w, by rw [List.getElem?_set_ne hpos, hw], hwritten⟩
  · exact ⟨w, by rw [reg_writeWord_ne s rd r pos v hne, hw], hwritten⟩

theorem ExecCase.keepsWritten {i : Instr} {s t : State} (hcase : ExecCase i s t) (hinv : s.Inv) : KeepsWritten s t := by
  cases hcase with
  | raised | data | digits => exact keepsWritten_of_sameRegs rfl
  | result rd ws b _ hrd hlen => exact keepsWritten_writeReg hinv hrd (hlen hinv)
  | zero rd _ hrd => exact keepsWritten_writeReg hinv hrd List.length_replicate
  | setw rd pos _ hrd _ => exact keepsWritten_writeWord hinv hrd pos s.data

/-! ## What the write of a register does to ERR and OVR -/

/-- Only bit 15 of a STATUS write touches ERR and ERROP, and it clears both (R30, R31). -/
theorem hostWrite_error (s : State) {off : Offset} (hoff : RegisterOffset off) (v : Word) :
    sameError s (s.hostWrite off .b64 v) ∨ (off = offStatus ∧ v.getLsbD 15 = true ∧
      (s.hostWrite off .b64 v).status.err = 0#4 ∧ (s.hostWrite off .b64 v).status.errop = 0#8) := by
  obtain rfl | rfl | rfl | rfl | rfl | rfl := hoff
  · rw [hostWrite_cmd]
    obtain ⟨-, hw⟩ | ⟨-, -, hw⟩ := writeCmd_cases s v <;> rw [hw] <;> exact .inl ⟨rfl, rfl⟩
  · rw [hostWrite_data, State.hostWriteData]
    split <;> exact .inl ⟨rfl, rfl⟩
  · rw [hostWrite_status, writeStatus_eq]
    cases hclr : v.getLsbD 15 with
    | false => exact .inl ⟨rfl, rfl⟩
    | true => exact .inr ⟨rfl, rfl, rfl, rfl⟩
  · rw [hostWrite_ctrl, State.writeCtrl]
    split <;> exact .inl ⟨rfl, rfl⟩
  · rw [hostWrite_declen]
    exact .inl ⟨rfl, rfl⟩
  · rw [hostWrite_param]
    exact .inl ⟨rfl, rfl⟩

/-- When the block drops an aligned 64-bit write (R28, R55, R56). -/
def DroppedWrite (s : State) (off : Offset) : Prop :=
  ((off = offCmd ∨ off = offData ∨ off = offCtrl) ∧ s.status.busy = true) ∨ (off = offCmd ∧ s.status.err ≠ 0#4)

theorem hostWrite_of_dropped {s : State} {off : Offset} (h : DroppedWrite s off) (v : Word) :
    s.hostWrite off .b64 v = s.setOvr := by
  obtain ⟨rfl | rfl | rfl, hbusy⟩ | ⟨rfl, herr⟩ := h
  · exact hostWrite_cmd_of_drop (.inl hbusy) v
  · exact hostWrite_data_of_busy hbusy v
  · exact hostWrite_ctrl_of_busy hbusy v
  · exact hostWrite_cmd_of_drop (.inr herr) v

/-- A write that is not dropped touches OVR by bit 3 of STATUS only (R24, R28). -/
theorem hostWrite_ovr {s : State} {off : Offset} (hoff : RegisterOffset off) (h : ¬ DroppedWrite s off) (v : Word) :
    (s.hostWrite off .b64 v).status.ovr = s.status.ovr ∨
    (off = offStatus ∧ (s.hostWrite off .b64 v).status.ovr = (s.status.ovr && !v.getLsbD 3)) := by
  obtain ⟨hbusy, herr⟩ := not_or.mp h
  obtain rfl | rfl | rfl | rfl | rfl | rfl := hoff
  · rw [hostWrite_cmd_of_accept (by simpa using hbusy) (by simpa using herr)]
    exact .inl rfl
  · rw [hostWrite_data_of_idle (by simpa using hbusy)]
    exact .inl rfl
  · rw [hostWrite_status, writeStatus_eq]
    exact .inr ⟨rfl, rfl⟩
  · rw [hostWrite_ctrl_of_idle (by simpa using hbusy)]
    exact .inl rfl
  · rw [hostWrite_declen]
    exact .inl rfl
  · rw [hostWrite_param]
    exact .inl rfl

/-- A step leaves OVR as it is, or it is a reset, or the write of a register (R28). -/
theorem StepCase.ovr {s t : State} (h : StepCase s t) :
    t.status.ovr = s.status.ovr ∨ (s.acting = some .reset ∧ t.status.ovr = false) ∨
    ∃ off v, s.acting = some (.write off .b64 v) ∧
      ((DroppedWrite s off ∧ t.status.ovr = true) ∨
        (off = offStatus ∧ t.status.ovr = (s.status.ovr && !v.getLsbD 3))) := by
  cases h with
  | illegal => exact .inl rfl
  | command _ _ _ _ _ hcase => exact .inl hcase.completed.ovr
  | reset _ hact => exact .inr (.inl ⟨hact, rfl⟩)
  | write off v rest hact hoff =>
    by_cases hdropped : DroppedWrite s off
    · refine .inr (.inr ⟨off, v, hact, .inl ⟨hdropped, ?_⟩⟩)
      rw [hostWrite_of_dropped (s := s.hostTurn rest) hdropped, State.setOvr_ovr]
    · exact (hostWrite_ovr (s := s.hostTurn rest) hoff hdropped v).imp_right fun hclr =>
        .inr ⟨off, v, hact, .inr hclr⟩
  | quiet => exact .inl rfl

/-! ## The obligations -/

/-- Settles O41: with an error nothing is due, so the step is the host's, and only ERRCLR and the reset touch ERR. -/
theorem errHoldsTheFirstError : Obligations.ErrHoldsTheFirstError := by
  intro s t hinv herr hstep
  have hdue : s.due = none := (due_eq_none s).mpr (.inr (hinv.pending_of_error herr))
  cases step_stepCase hstep with
  | illegal _ hsome | command _ _ _ hsome => exact absurd (hsome.symm.trans hdue) (Option.some_ne_none _)
  | reset _ hact => exact .inr ⟨rfl, rfl, .inl hact⟩
  | write off v rest hact hoff =>
    obtain hsame | ⟨rfl, hclr, hzero, hzero'⟩ := hostWrite_error (s.hostTurn rest) hoff v
    · exact .inl hsame
    · exact .inr ⟨hzero, hzero', .inr ⟨v, hact, hclr⟩⟩
  | quiet => exact .inl ⟨rfl, rfl⟩

/-- Settles O42: of the cases of a command only the result sets flags, and the host sets none. -/
theorem flagsChangeOnlyWithAResult : Obligations.FlagsChangeOnlyWithAResult := by
  intro s t hinv hstep
  cases step_stepCase hstep with
  | illegal | quiet => exact .inl ⟨rfl, rfl⟩
  | command _ i _ _ hrun hcase =>
    exact (hcase.flags hinv).imp_right fun ⟨rd, hrd, hsame, hz⟩ => .inr ⟨i, rd, hrun, hrd, hsame, hz⟩
  | reset _ hact => exact .inr (.inl hact)
  | write off v rest _ hoff =>
    obtain ⟨-, -, hflags, -⟩ := hostWrite_frame (s.hostTurn rest) off v hoff
    exact .inl hflags

/-- Settles O43: a command writes its destination only, and the host writes no register. -/
theorem registersChangeOnlyAsDestination : Obligations.RegistersChangeOnlyAsDestination := by
  intro s t hstep r
  cases step_stepCase hstep with
  | illegal | quiet => exact .inl rfl
  | command _ i _ _ hrun hcase =>
    exact (hcase.reg r).imp_right fun ⟨hdest, hsame⟩ => .inr ⟨i, hrun, hdest, hsame⟩
  | reset _ hact => exact .inr (.inl hact)
  | write off v rest _ hoff =>
    obtain ⟨hregs, -⟩ := hostWrite_frame (s.hostTurn rest) off v hoff
    exact .inl (reg_congr hregs r)

/-- Settles O44: what a command writes is written, and the host writes no register. -/
theorem writtenWordsStayWritten : Obligations.WrittenWordsStayWritten := by
  intro s t hinv hstep hno
  change KeepsWritten s t
  cases step_stepCase hstep with
  | illegal | quiet => exact keepsWritten_of_sameRegs rfl
  | command _ _ _ _ _ hcase => exact hcase.keepsWritten hinv
  | reset _ hact => exact absurd hact hno
  | write off v rest _ hoff =>
    obtain ⟨hregs, -⟩ := hostWrite_frame (s.hostTurn rest) off v hoff
    exact keepsWritten_of_sameRegs hregs

/-- Settles O45: of the commands GETW and LEN write DATA, of the host's writes the one to DATA. -/
theorem dataChangesOnlyByItsWriters : Obligations.DataChangesOnlyByItsWriters := by
  intro s t hstep
  cases step_stepCase hstep with
  | illegal | quiet => exact .inl rfl
  | command _ i _ _ hrun hcase =>
    obtain hsame | ⟨r, rfl⟩ | ⟨r, pos, rfl⟩ := hcase.data_eq
    · exact .inl hsame
    · exact .inr (.inr (.inr (.inl ⟨r, hrun⟩)))
    · exact .inr (.inr (.inr (.inr ⟨r, pos, hrun⟩)))
  | reset _ hact => exact .inr (.inl hact)
  | write off v rest hact hoff =>
    obtain ⟨-, -, -, -, -, hdata⟩ := hostWrite_frame (s.hostTurn rest) off v hoff
    refine hdata.imp_right fun ⟨hoffData, hidle, hv⟩ => .inr (.inl ⟨v, ?_, hidle, hv⟩)
    rw [hact, hoffData]

/-- Settles O47: a dropped write sets OVR, and every change of OVR by a step is one of the cases of `StepCase.ovr`. -/
theorem ovrRecordsDroppedWrites : Obligations.OvrRecordsDroppedWrites := by
  refine ⟨fun s off v hdropped => hostWrite_of_dropped hdropped v, fun s t hstep hbefore hafter => ?_,
    fun s t hstep hbefore hafter => ?_, rfl⟩
  · obtain hsame | ⟨-, hreset⟩ | ⟨off, v, hact, ⟨hdropped, -⟩ | ⟨-, hclr⟩⟩ := (step_stepCase hstep).ovr
    · simp [hsame, hbefore] at hafter
    · simp [hreset] at hafter
    · exact ⟨off, v, hact, hdropped⟩
    · simp [hclr, hbefore] at hafter
  · obtain hsame | ⟨hact, -⟩ | ⟨off, v, hact, ⟨-, hset⟩ | ⟨rfl, hclr⟩⟩ := (step_stepCase hstep).ovr
    · simp [hsame, hbefore] at hafter
    · exact .inl hact
    · simp [hset] at hafter
    · rw [hbefore, Bool.true_and, hafter] at hclr
      exact .inr ⟨v, hact, by simpa using hclr⟩

end Sys2Proof.Machine
end
